-- ==== Sys2Proof/Word.lean ====
section
/-! DEFINITION. The widths of the two modules' ports as bit vectors (spec/00_scope.md R5, R6; spec/10_state.md R16, R17).
Every value is unsigned; bit 0 is the least significant bit. -/

namespace Sys2Proof

/-- The operand of `LZC8`, port `byte_i[7:0]` (R16, R31). -/
abbrev Byte := BitVec 8

/-- The operand of `LZC16`, port `word_i[15:0]` (R17, R32). -/
abbrev Half := BitVec 16

/-- The result of `LZC8`, port `count_o[3:0]`, format `C4` (R33; the width is the spec's decision D3). -/
abbrev Count4 := BitVec 4

/-- The result of `LZC16`, port `count_o[4:0]`, format `C5` (R34; the width is the spec's decision D3). -/
abbrev Count5 := BitVec 5

end Sys2Proof
end

