-- ==== Sys2Proof/Machine/Operands.lean ====
section
/-! DEFINITION. The constants of spec/30_encoding.md R35 and the primitives of spec/00_scope.md R7 on operands: the parts of the
16-bit operand, truncation, zero extension, selection. The one operand form of each operation is its whole port (R36). -/

namespace Sys2Proof.Machine

/-- `M1`, "the upper nibble (bits 7–4)" (R35; the literal is derived there). -/
def maskNibble : Byte := 0xF0

/-- `M2`, "the top 2 bits" of the 4-bit window (R35, "mask 0x0c"). -/
def maskPair : Byte := 0x0C

/-- `M3`, "the top bit" of the 2-bit window (R35, "mask 0x02"). -/
def maskTop : Byte := 0x02

/-- `M0`, "the upper byte (bits 15–8)" (R35; the literal is derived there). -/
def maskByte : Half := 0xFF00

/-- `S1`, the shift of stage 1 (R35). -/
def shiftNibble : Nat := 4

/-- `S2`, the shift of stage 2 (R35). -/
def shiftPair : Nat := 2

/-- `S0`, the shift of stage 0 (R35). -/
def shiftByte : Nat := 8

/-- `K1`, the contribution of an all-zero upper nibble (R35). -/
def addNibble : Count4 := 4

/-- `K2`, the contribution of an all-zero upper pair (R35). -/
def addPair : Count4 := 2

/-- `K3`, the contribution of a clear top bit (R35). -/
def addTop : Count4 := 1

/-- `K4`, the contribution of a zero operand (R35, C1). -/
def addZero : Count4 := 1

/-- `K0`, the contribution of an all-zero upper byte (R35). -/
def addByte : Count5 := 8

/-- `c ? a : b` (R7): a two-way selection, not a branch (D10). -/
def select {n : Nat} (c : Bool) (a b : BitVec n) : BitVec n :=
  match c with
  | true => a
  | false => b

/-- `high_byte(w) = w[15:8]` (R21). -/
def highByte (w : Half) : Byte := w.extractLsb' 8 8

/-- `low_byte(w) = w[7:0]` (R21). -/
def lowByte (w : Half) : Byte := w.extractLsb' 0 8

/-- `trunc_8(v) = v[7:0]` (R7). -/
def trunc8 (v : Half) : Byte := v.setWidth 8

/-- `zext_5(v)` (R7). -/
def zext5 (v : Count4) : Count5 := v.setWidth 5

end Sys2Proof.Machine
end

