-- ==== Sys2Proof/Machine/Flags.lean ====
section
/-! DEFINITION. The one-bit tests of spec/00_scope.md R7. The hardware has NO flag and no condition code (spec/10_state.md R13):
these tests feed the internal nets `s0 s1 s2 s3 z` (R18) and nothing else, and no operation writes a flag (R40, R50). -/

namespace Sys2Proof.Machine

/-- `(v & m) != 0` (R7): at least one of the bits under the mask is 1, not all of them (R42, N8). -/
def anySet {n : Nat} (v m : BitVec n) : Bool := v &&& m != 0#n

/-- `v == 0` (R7). -/
def isZero {n : Nat} (v : BitVec n) : Bool := v == 0#n

end Sys2Proof.Machine
end

