-- ==== Sys2Proof/Config.lean ====
section
/-! DEFINITION. The implementation parameters of spec/00_scope.md R5. The hardware leaves no parameter to an implementation
and no value open (spec/93_implementation_defined.md), so there is no free value here. -/

namespace Sys2Proof.Config

/-- `W8`, the operand width of `LZC8` (R5). -/
def w8 : Nat := 8

/-- `W16`, the operand width of `LZC16` (R5). -/
def w16 : Nat := 16

/-- The largest count of `LZC8` (R5, "unsigned integer in [0, 8]"). -/
def max8 : Nat := 8

/-- The largest count of `LZC16` (R5, "unsigned integer in [0, 16]"). -/
def max16 : Nat := 16

end Sys2Proof.Config
end

