-- ==== Sys2Proof/Syntax.lean ====
section
/-! DEFINITION. The two operations, and what the host puts on a port (spec/30_encoding.md, spec/70_reset_and_hazards.md R87). -/

namespace Sys2Proof

/-- The operations of spec/opcode_table.json (R30), each on one instance ("site") of its module and with its one operand (R36).
The operand is a two-valued bit vector (D4). Instances have no identifier in the hardware (R70): `site` is the model's own
number for the wires the operand is on (DESIGN CHOICE, log 2, safe). -/
inductive Instr where
  | lzc8 (site : Nat) (b : Byte)
  | lzc16 (site : Nat) (w : Half)
deriving DecidableEq, Repr

/-- The two modules (R1, R30): an operation is selected by the module its operand is wired to. -/
inductive Block where
  | eight
  | sixteen
deriving DecidableEq, Repr

/-- What one wire of an operand port carries. The last three are the levels R87 puts outside the operand's domain. -/
inductive Level where
  | low
  | high
  | undriven
  | unknown
  | highImpedance
deriving DecidableEq, Repr

/-- The host's act of R87: it puts levels on the operand port of one instance. Level number `i` of the list is bit `i` (R6). -/
structure Presentation where
  block  : Block
  site   : Nat
  levels : List Level
deriving DecidableEq, Repr

/-- Why the boundary gives a presentation no meaning: `operandWidth`, the module has no port of that width (R5, R57, U1);
`operandBit`, a bit is neither 0 nor 1 (R87, D4, U2). -/
inductive Rejection where
  | operandWidth
  | operandBit
deriving DecidableEq, Repr

/-- The decoder's answer. -/
inductive Reading where
  | instr (i : Instr)
  | rejected (why : Rejection)
deriving DecidableEq, Repr

/-- A written evaluation, `LZC8 0x10 -> 3` (R38): module, operand, and the count it claims. -/
structure Evaluation where
  block   : Block
  operand : Nat
  count   : Nat
deriving DecidableEq, Repr

/-- The operand width of a module (R5). -/
def Block.width : Block → Nat
  | .eight => Config.w8
  | .sixteen => Config.w16

/-- The largest count of a module (R5). -/
def Block.maxCount : Block → Nat
  | .eight => Config.max8
  | .sixteen => Config.max16

/-- The module that performs an operation (R30). -/
def Instr.block : Instr → Block
  | .lzc8 _ _ => .eight
  | .lzc16 _ _ => .sixteen

/-- The number of the instance an operation is performed by (log 2). -/
def Instr.site : Instr → Nat
  | .lzc8 n _ => n
  | .lzc16 n _ => n

end Sys2Proof
end

