-- ==== Sys2Proof/WellFormed.lean ====
section
/-! DEFINITION. What the boundary of the model lets in (spec/30_encoding.md R37, R38; spec/70_reset_and_hazards.md R87). -/

namespace Sys2Proof

/-- A level inside the operand's domain: 0 or 1 (R87). -/
def Level.isBinary : Level → Bool
  | .low => true
  | .high => true
  | .undriven => false
  | .unknown => false
  | .highImpedance => false

/-- Check 1: as many levels as the module's port has bits (R16, R17, R57). -/
def Presentation.widthOk (p : Presentation) : Bool :=
  p.levels.length == p.block.width

/-- Check 2: every bit is driven with 0 or 1 (R87). -/
def Presentation.driven (p : Presentation) : Bool :=
  p.levels.all Level.isBinary

def Presentation.wellFormed (p : Presentation) : Bool :=
  p.widthOk && p.driven

/-- "No operand value is reserved, illegal or a hint" (R37): every operation on a two-valued operand is well formed, so this
check has nothing to refuse. What can be ill formed is a presentation or a written evaluation. -/
def Instr.wellFormed : Instr → Bool
  | .lzc8 _ _ => true
  | .lzc16 _ _ => true

/-- Check 3: the operand has the digits the grammar gives it (R38): 2 hexadecimal digits for `LZC8`, 4 for `LZC16`. -/
def Evaluation.operandOk (e : Evaluation) : Bool :=
  decide (e.operand < 2 ^ e.block.width)

/-- Check 4: the count is in the grammar's range (R38): 0..8 for `LZC8`, 0..16 for `LZC16`. -/
def Evaluation.countOk (e : Evaluation) : Bool :=
  decide (e.count ≤ e.block.maxCount)

def Evaluation.wellFormed (e : Evaluation) : Bool :=
  e.operandOk && e.countOk

end Sys2Proof
end

