-- ==== Sys2Proof/Decode.lean ====
section
/-! DEFINITION. From the levels on a port to the operation, and back (spec/30_encoding.md R30 to R32, R37;
spec/70_reset_and_hazards.md R87). No bit selects the operation: the module does. -/

namespace Sys2Proof

/-- The bit a wire carries; none for a level outside the operand's domain (R87, D4). -/
def levelBit : Level → Option Bool
  | .low => some false
  | .high => some true
  | .undriven => none
  | .unknown => none
  | .highImpedance => none

/-- The level that carries a bit. -/
def bitLevel : Bool → Level
  | false => .low
  | true => .high

/-- The unsigned value of a list of levels, bit 0 first, weight `2^i` for bit `i` (R6); none where a bit is not 0 or 1. -/
def valueOf : List Level → Option Nat
  | [] => some 0
  | l :: ls =>
    match levelBit l, valueOf ls with
    | some b, some v => some (b.toNat + 2 * v)
    | _, _ => none

/-- The levels of the low `n` bits of `v`, bit 0 first (R6). -/
def levelsOf : Nat → Nat → List Level
  | 0, _ => []
  | n + 1, v => bitLevel (v % 2 == 1) :: levelsOf n (v / 2)

/-- The operation on a value: the module alone decides which (R30). -/
def operation : Block → Nat → Nat → Instr
  | .eight, site, v => .lzc8 site (BitVec.ofNat 8 v)
  | .sixteen, site, v => .lzc16 site (BitVec.ofNat 16 v)

/-- Reads a presentation. Total; rejects by name, the width first (R37, R57, R87). -/
def decode (p : Presentation) : Reading :=
  if p.widthOk then
    match valueOf p.levels with
    | some v => .instr (operation p.block p.site v)
    | none => .rejected .operandBit
  else .rejected .operandWidth

/-- What the host drives to have an operation performed, from R31 and R32. -/
def encode : Instr → Presentation
  | .lzc8 site b => { block := .eight, site := site, levels := levelsOf 8 b.toNat }
  | .lzc16 site w => { block := .sixteen, site := site, levels := levelsOf 16 w.toNat }

/-- The presentation of a word of spec/opcode_table.json. The table tells its rows apart by their format and so by their
length (R30); the operand goes to site 0, and a length no row has goes to a port of another width, which `decode` rejects
(DESIGN CHOICE, log 9, safe). -/
def tablePresentation (nbits w : Nat) : Presentation :=
  { block := if nbits = 8 then .eight else .sixteen, site := 0, levels := levelsOf nbits w }

/-- What the decoder reads from a word numbered as spec/opcode_table.json numbers it. -/
def decodeTableWord (nbits w : Nat) : Option Instr :=
  match decode (tablePresentation nbits w) with
  | .instr i => some i
  | .rejected _ => none

/-- The table word of an operation: its length in bits and its bits. The site is not part of a table word. -/
def encodeTableWord : Instr → Nat × Nat
  | .lzc8 _ b => (8, b.toNat)
  | .lzc16 _ w => (16, w.toNat)

end Sys2Proof
end

