-- ==== Sys2Proof/Machine/State.lean ====
section
/-! DEFINITION. The machine's state as plain data (spec/10_state.md; INVENTORY.md, State).

The hardware holds no state: "A model's state type for this hardware is the unit type" (R10), and that is `Hardware`. Beside it
stands the HOST'S SIDE of the ports (R87): the operands the host drives, the operands it presents next, and the count it was just
given (DESIGN CHOICE, log 1, safe). No count of an earlier evaluation and no net of R18 is kept anywhere. -/

namespace Sys2Proof.Machine

/-- The state of the hardware, of all instances together: there is none (R10, R70). -/
abbrev Hardware := Unit

/-- The ports of one instance of `leading_zero_counter_8bit` (R16). -/
structure Ports8 where
  byteI  : Byte
  countO : Count4
deriving DecidableEq, Repr

/-- The ports of one instance of `leading_zero_counter_16bit` (R17). -/
structure Ports16 where
  wordI  : Half
  countO : Count5
deriving DecidableEq, Repr

/-- Instances by number, the numbers strictly rising (log 2). An instance that is not listed has an undriven operand. -/
abbrev Bank (α : Type) := List (Nat × α)

/-- What an evaluation gives the host (R86, R87): the count on `count_o` of the instance that performed it. -/
inductive Given where
  | eight (site : Nat) (countO : Count4)
  | sixteen (site : Nat) (countO : Count5)
deriving DecidableEq, Repr

/-- The host's side of the ports (R87).

* `wires8`, `wires16`: the operands the host drives on the input ports of the instances (R16, R17; log 7).
* `pending`: the operands it presents next, oldest first (D18; log 3).
* `given`: the count of the evaluation just made, none before the first. The next evaluation replaces it (log 1). -/
structure HostSide where
  wires8  : Bank Byte
  wires16 : Bank Half
  pending : List Presentation
  given   : Option Given
deriving DecidableEq, Repr

/-- The hardware's state, which is none, and the host's side of the ports. -/
structure State where
  hardware : Hardware
  host     : HostSide
deriving DecidableEq, Repr

/-- No fault exists: "The hardware raises none" (R60, D11). Nobody raises one. The type is empty, so a claim that no step faults
holds by the type itself. -/
inductive Fault where
deriving DecidableEq, Repr

/-- Why the model gives a step no meaning.

* `notModelled`: raised by exec's arm of an instruction that has no meaning yet; none has that arm. Safe.
* `nothingPresented`: raised by `step` when the host presents no operand, so no evaluation takes place (R86; log 3). Safe.
* `operandBit`: raised by `step` for an operand with a bit that is neither 0 nor 1 (R87, D4, U2). Safe.
* `operandWidth`: raised by `step` for an operand of a width the module's port does not have (R57, U1). Safe. -/
inductive Refusal where
  | notModelled (mnemonic : String)
  | nothingPresented
  | operandBit
  | operandWidth
deriving DecidableEq, Repr

/-- There is no state to reset (R19, R80, R81): no operand is driven yet (log 8), nothing is presented and nothing was given. -/
def State.reset : State where
  hardware := ()
  host := { wires8 := [], wires16 := [], pending := [], given := none }

end Sys2Proof.Machine
end

