-- ==== Sys2Proof/Machine/Ops.lean ====
section
/-! DEFINITION. The named operations over the state: what the hardware does to it (`State.give`), and what the host does (holding
an operand on a port, presenting, taking the next presentation).

Taking an exception and returning from one do not exist: "There is no trap. No state is saved, no mode changes"
(spec/60_exceptions.md R60, R63, R64). There is no register and no memory to read or write (R11, R20). -/

namespace Sys2Proof.Machine

/-- What a bank lists under a number. -/
def bankGet {α : Type} : Bank α → Nat → Option α
  | [], _ => none
  | (m, x) :: rest, n => if m = n then some x else bankGet rest n

/-- Lists `x` under `n`, in place of what stood there; rising numbers stay rising. -/
def bankPut {α : Type} : Bank α → Nat → α → Bank α
  | [], n, x => [(n, x)]
  | (m, y) :: rest, n, x =>
    if n < m then (n, x) :: (m, y) :: rest
    else if n = m then (n, x) :: rest
    else (m, y) :: bankPut rest n x

/-- The hardware's whole effect: it gives the host a count (R86: "A step reads nothing else and writes nothing else"), and its
own state is none before and after (R10). -/
def State.give (s : State) (g : Given) : State :=
  { hardware := (), host := { s.host with given := some g } }

/-- The host drives `b` on `byte_i` of instance `n` of the 8-bit module, and no other wire changes (R70, R87). -/
def State.hold8 (s : State) (n : Nat) (b : Byte) : State :=
  { s with host := { s.host with wires8 := bankPut s.host.wires8 n b } }

/-- The host drives `w` on `word_i` of instance `n` of the 16-bit module, and no other wire changes (R70, R87). -/
def State.hold16 (s : State) (n : Nat) (w : Half) : State :=
  { s with host := { s.host with wires16 := bankPut s.host.wires16 n w } }

/-- The host drives the operand of an operation on the port of the instance that performs it (R30, R87; log 7). -/
def State.hold (s : State) : Instr → State
  | .lzc8 n b => s.hold8 n b
  | .lzc16 n w => s.hold16 n w

/-- The host has these presentations before it (log 3). -/
def State.withPending (s : State) (ps : List Presentation) : State :=
  { s with host := { s.host with pending := ps } }

/-- The host's oldest presentation, and the state with it taken (R87; log 3). -/
def State.takePresentation (s : State) : Option (Presentation × State) :=
  match s.host.pending with
  | [] => none
  | p :: rest => some (p, s.withPending rest)

/-- The host presents `p` before anything else it was to present. -/
def State.presentFirst (s : State) (p : Presentation) : State :=
  s.withPending (p :: s.host.pending)

/-- The refusal at the boundary that a rejected presentation ends in (R87, R57). -/
def refusalOf : Rejection → Refusal
  | .operandBit => .operandBit
  | .operandWidth => .operandWidth

end Sys2Proof.Machine
end

