-- ==== Sys2Proof/Machine/Lzc8.lean ====
section
/-! DEFINITION. The operation `LZC8` (spec/40_lzc8.md), in the staged form R9 asks for. Each net is a function of the nets its
stage reads (R41 to R44). -/

namespace Sys2Proof.Machine

/-- Stage 1 (R41): is the upper nibble nonzero? -/
def netS1 (b : Byte) : Bool := anySet b maskNibble

/-- Stage 1 (R41): the nibble that holds the first set bit, in bits 3..0. -/
def netX1 (b : Byte) : Byte := select (netS1 b) (b >>> shiftNibble) b

/-- Stage 1 (R41): the contribution. -/
def netC1 (b : Byte) : Count4 := select (netS1 b) 0 addNibble

/-- Stage 2 (R42) on `x1`: are the top 2 bits of the 4-bit window nonzero? -/
def netS2 (x1 : Byte) : Bool := anySet x1 maskPair

/-- Stage 2 (R42): the 2-bit window, in bits 1..0. -/
def netX2 (x1 : Byte) : Byte := select (netS2 x1) (x1 >>> shiftPair) x1

/-- Stage 2 (R42): the contribution. -/
def netC2 (x1 : Byte) : Count4 := select (netS2 x1) 0 addPair

/-- Stage 3 (R43) on `x2`: is the top bit of the 2-bit window set? -/
def netS3 (x2 : Byte) : Bool := anySet x2 maskTop

/-- Stage 3 (R43): the contribution. -/
def netC3 (x2 : Byte) : Count4 := select (netS3 x2) 0 addTop

/-- The zero-operand term (R44) on `x2`: is the whole 2-bit window zero? The form of the test is the spec's decision D5 (C1). -/
def netZ (x2 : Byte) : Bool := isZero x2

/-- The zero-operand term (R44): the contribution. -/
def netC4 (x2 : Byte) : Count4 := select (netZ x2) addZero 0

/-- The internal nets of `leading_zero_counter_8bit` (R18). They are no state and stand on no port. -/
structure Nets8 where
  s1 : Bool
  x1 : Byte
  c1 : Count4
  s2 : Bool
  x2 : Byte
  c2 : Count4
  s3 : Bool
  c3 : Count4
  z  : Bool
  c4 : Count4
deriving DecidableEq, Repr

/-- Every net for one operand (R40). -/
def nets8 (b : Byte) : Nets8 :=
  let x1 := netX1 b
  let x2 := netX2 x1
  { s1 := netS1 b, x1 := x1, c1 := netC1 b
    s2 := netS2 x1, x2 := x2, c2 := netC2 x1
    s3 := netS3 x2, c3 := netC3 x2
    z := netZ x2, c4 := netC4 x2 }

/-- The sum (R45): `count_o` of `leading_zero_counter_8bit`. -/
def countLeadingZeros8 (b : Byte) : Count4 :=
  let n := nets8 b
  n.c1 + n.c2 + n.c3 + n.c4

/-- `LZC8` (R40): instance `n` takes the operand on `byte_i` and gives the count on `count_o`. It reads nothing of the state and
keeps nothing (R10, R86). -/
def execLzc8 (n : Nat) (b : Byte) (s : State) : Host.Outcome State Fault Refusal :=
  .next (s.give (.eight n (countLeadingZeros8 b)))

end Sys2Proof.Machine
end

