-- ==== Sys2Proof/Machine/Lzc16.lean ====
section
/-! DEFINITION. The operation `LZC16` (spec/41_lzc16.md): a byte selection in front of one inner `LZC8` ("composition, not
reimplementation", R52). -/

namespace Sys2Proof.Machine

/-- Stage 0 (R51): is the upper byte nonzero? -/
def netS0 (w : Half) : Bool := anySet w maskByte

/-- Stage 0 (R51): the byte that holds the first set bit, in bits 7..0. -/
def netY (w : Half) : Half := select (netS0 w) (w >>> shiftByte) w

/-- Stage 0 (R51): the contribution. -/
def netC0 (w : Half) : Count5 := select (netS0 w) 0 addByte

/-- The inner `LZC8` (R52), on the selected byte. -/
def netN8 (y : Half) : Count4 := countLeadingZeros8 (trunc8 y)

/-- The internal nets of `leading_zero_counter_16bit` (R18). They are no state and stand on no port. -/
structure Nets16 where
  s0 : Bool
  y  : Half
  c0 : Count5
  n8 : Count4
deriving DecidableEq, Repr

/-- Every net for one operand (R50). -/
def nets16 (w : Half) : Nets16 :=
  let y := netY w
  { s0 := netS0 w, y := y, c0 := netC0 w, n8 := netN8 y }

/-- The sum (R53): `count_o` of `leading_zero_counter_16bit`. -/
def countLeadingZeros16 (w : Half) : Count5 :=
  let n := nets16 w
  n.c0 + zext5 n.n8

/-- `LZC16` (R50): instance `n` takes the operand on `word_i` and gives the count on `count_o`. It reads nothing of the state and
keeps nothing (R10, R55, R86). -/
def execLzc16 (n : Nat) (w : Half) (s : State) : Host.Outcome State Fault Refusal :=
  .next (s.give (.sixteen n (countLeadingZeros16 w)))

end Sys2Proof.Machine
end

