-- ==== Sys2Proof/Machine/Dispatch.lean ====
section
/-! DEFINITION. One arm per operation of spec/opcode_table.json. -/

namespace Sys2Proof.Machine

def exec (i : Instr) (s : State) : Host.Outcome State Fault Refusal :=
  match i with
  | .lzc8 site b => Sys2Proof.Machine.execLzc8 site b s
  | .lzc16 site w => Sys2Proof.Machine.execLzc16 site w s

end Sys2Proof.Machine
end

