-- ==== Sys2Proof/Machine/Step.lean ====
section
/-! DEFINITION. One step is one evaluation (spec/70_reset_and_hazards.md R86): the host takes its next presentation, which is read
at the boundary and, when it is a driven operand, held on the wires (R87), and the instance it is wired to performs the operation. -/

namespace Sys2Proof.Machine

def step (s : State) : Host.Outcome State Fault Refusal :=
  match s.takePresentation with
  | none => .refused .nothingPresented
  | some (p, s') =>
    match decode p with
    | .instr i => exec i (s'.hold i)
    | .rejected why => .refused (refusalOf why)

/-- The word of spec/opcode_table.json stands where the next step takes its operand: the host presents it first. -/
def State.withFetchWord (s : State) (nbits w : Nat) : State :=
  s.presentFirst (tablePresentation nbits w)

end Sys2Proof.Machine
end

