-- ==== Sys2Proof/Machine/Reference.lean ====
section
/-! DEFINITION. The reference function `clz_N` of spec/00_scope.md R8. No instruction calls it: it is what statements compare
the hardware with. The hardware counts at the widths 8 and 16 only (R57); the proof of R46 also speaks of the 4-bit and the
2-bit window. -/

namespace Sys2Proof.Machine

/-- The largest `i < n` with bit `i` of `v` set. -/
def highestSetBit : Nat → Nat → Option Nat
  | 0, _ => none
  | i + 1, v => if v.testBit i then some i else highestSetBit i v

/-- R8: `clz_N(0) = N`, and `clz_N(v) = N - 1 - p` with `p` the position of the highest set bit. -/
def clzWindow (n v : Nat) : Nat :=
  match highestSetBit n v with
  | none => n
  | some p => n - 1 - p

/-- `clz_8` (R8). -/
def clz8 (b : Byte) : Nat := clzWindow 8 b.toNat

/-- `clz_16` (R8). -/
def clz16 (w : Half) : Nat := clzWindow 16 w.toNat

end Sys2Proof.Machine
end

