-- ==== Sys2Proof/Machine/Written.lean ====
section
/-! DEFINITION. The written form of an evaluation, `LZC8 0x10 -> 3`, as a list of characters (spec/30_encoding.md R38). One space
stands between the parts, a hexadecimal digit is read in either case and written as a capital, and a decimal count has no
leading zero (DESIGN CHOICE, log 10, safe). -/

namespace Sys2Proof.Machine

/-- The digits 0..9 and A..F. -/
def digitChar (d : Nat) : Char :=
  if d < 10 then Char.ofNat (48 + d) else Char.ofNat (55 + d)

/-- The value of a hexadecimal digit in either case. -/
def digitValue (c : Char) : Option Nat :=
  let k := c.toNat
  if 48 ≤ k ∧ k ≤ 57 then some (k - 48)
  else if 65 ≤ k ∧ k ≤ 70 then some (k - 55)
  else if 97 ≤ k ∧ k ≤ 102 then some (k - 87)
  else none

/-- The low `n` hexadecimal digits of `v`, the most significant first. -/
def writeHex : Nat → Nat → List Char
  | 0, _ => []
  | n + 1, v => writeHex n (v / 16) ++ [digitChar (v % 16)]

/-- Reads exactly `n` hexadecimal digits after the value `acc` and gives what is left. -/
def readHex : Nat → Nat → List Char → Option (Nat × List Char)
  | 0, acc, cs => some (acc, cs)
  | _ + 1, _, [] => none
  | n + 1, acc, c :: cs =>
    match digitValue c with
    | some d => readHex n (16 * acc + d) cs
    | none => none

/-- A count below 100 in decimal. -/
def writeCount (c : Nat) : List Char :=
  if c < 10 then [digitChar c] else [digitChar (c / 10), digitChar (c % 10)]

/-- A decimal digit. -/
def decimalValue (c : Char) : Option Nat :=
  match digitValue c with
  | some d => if d < 10 then some d else none
  | none => none

/-- Reads a decimal number of one or two digits, no leading zero, to the end. -/
def readCount : List Char → Option Nat
  | [a] => decimalValue a
  | [a, b] =>
    match decimalValue a, decimalValue b with
    | some x, some y => if x = 0 then none else some (10 * x + y)
    | _, _ => none
  | _ => none

/-- Drops `pre` from the front of `cs`. -/
def dropFront : List Char → List Char → Option (List Char)
  | [], cs => some cs
  | _ :: _, [] => none
  | p :: ps, c :: cs => if p = c then dropFront ps cs else none

/-- The mnemonic and the start of the operand. -/
def writtenStart : Block → List Char
  | .eight => ['L', 'Z', 'C', '8', ' ', '0', 'x']
  | .sixteen => ['L', 'Z', 'C', '1', '6', ' ', '0', 'x']

/-- The arrow between operand and count. -/
def writtenArrow : List Char := [' ', '-', '>', ' ']

/-- How many hexadecimal digits the operand has (R38). -/
def hexDigits : Block → Nat
  | .eight => 2
  | .sixteen => 4

/-- Writes an evaluation (R38). -/
def writeEvaluation (e : Evaluation) : List Char :=
  writtenStart e.block ++ writeHex (hexDigits e.block) e.operand ++ writtenArrow ++ writeCount e.count

/-- Reads the rest of an evaluation of a known mnemonic, and checks the grammar's ranges. -/
def readOperandAndCount (k : Block) (cs : List Char) : Option Evaluation :=
  match readHex (hexDigits k) 0 cs with
  | none => none
  | some (v, cs) =>
    match dropFront writtenArrow cs with
    | none => none
    | some cs =>
      match readCount cs with
      | none => none
      | some c => if c ≤ k.maxCount then some { block := k, operand := v, count := c } else none

/-- Reads an evaluation by the grammar of R38. -/
def readEvaluation (cs : List Char) : Option Evaluation :=
  match dropFront (writtenStart .eight) cs with
  | some rest => readOperandAndCount .eight rest
  | none =>
    match dropFront (writtenStart .sixteen) cs with
    | some rest => readOperandAndCount .sixteen rest
    | none => none

/-- The count the machine gives for a module and an operand (R40, R50). -/
def countOf : Block → Nat → Nat
  | .eight, v => (countLeadingZeros8 (BitVec.ofNat 8 v)).toNat
  | .sixteen, v => (countLeadingZeros16 (BitVec.ofNat 16 v)).toNat

/-- A written evaluation is right when its count is the machine's. -/
def evaluationHolds (e : Evaluation) : Bool :=
  e.wellFormed && countOf e.block e.operand == e.count

end Sys2Proof.Machine
end

