-- ==== Sys2Proof/Machine/Ports.lean ====
section
/-! DEFINITION. What stands on the ports of an instance. The output port is computed from the operand the host drives and is not
stored: "at every moment" `count_o` is the function of the operand (spec/10_state.md R16, R17, R19). -/

namespace Sys2Proof.Machine

/-- The ports of instance `n` of `leading_zero_counter_8bit` (R16); none while its operand is undriven, which gives the output no
meaning (R19, R87). -/
def State.ports8 (s : State) (n : Nat) : Option Ports8 :=
  (bankGet s.host.wires8 n).map (fun b => { byteI := b, countO := countLeadingZeros8 b })

/-- The ports of instance `n` of `leading_zero_counter_16bit` (R17); none while its operand is undriven, which gives the output no
meaning (R19, R87). -/
def State.ports16 (s : State) (n : Nat) : Option Ports16 :=
  (bankGet s.host.wires16 n).map (fun w => { wordI := w, countO := countLeadingZeros16 w })

/-- The count on the output port of an instance of a module; none while its operand is undriven (R19). -/
def State.countAt (s : State) : Block → Nat → Option Nat
  | .eight, n => (s.ports8 n).map (fun p => p.countO.toNat)
  | .sixteen, n => (s.ports16 n).map (fun p => p.countO.toNat)

/-- The count the evaluation just made gave, if it was made by this instance of this module (R86). -/
def State.givenAt (s : State) : Block → Nat → Option Nat
  | .eight, n =>
    match s.host.given with
    | some (.eight m c) => if m = n then some c.toNat else none
    | some (.sixteen _ _) => none
    | none => none
  | .sixteen, n =>
    match s.host.given with
    | some (.eight _ _) => none
    | some (.sixteen m c) => if m = n then some c.toNat else none
    | none => none

end Sys2Proof.Machine
end

