-- ==== Sys2Proof/Safety.lean ====
section
/-! DEFINITION. The terms the statements use: the invariant of the ports, and the operand a list of evaluations
presents to an instance last. -/

namespace Sys2Proof.Machine

/-- A bank lists its instances in strictly rising order, so that equal banks are equal lists. -/
def bankSorted {α : Type} : Bank α → Bool
  | [] => true
  | (n, _) :: rest => rest.all (fun q => decide (n < q.1)) && bankSorted rest

/-- The canonical form of a state. -/
def State.sorted (s : State) : Bool := bankSorted s.host.wires8 && bankSorted s.host.wires16

/-- The count the host was given last is the count of the operand it drives on the instance that gave it (R16, R17, R86). -/
def State.follows (s : State) : Bool :=
  match s.host.given with
  | none => true
  | some (.eight n c) => (s.ports8 n).map Ports8.countO == some c
  | some (.sixteen n c) => (s.ports16 n).map Ports16.countO == some c

/-- The invariant: canonical form, and the count given is the one on the port. -/
abbrev State.Inv (s : State) : Prop := s.sorted = true ∧ s.follows = true

/-- Two operations are on different wires: another module or another instance of it (R70). -/
abbrev apart (i j : Instr) : Prop := i.block ≠ j.block ∨ i.site ≠ j.site

/-- The operand instance `n` of the 8-bit module was last given in a list of evaluations (R86). -/
def lastOperand8 (n : Nat) : List Instr → Option Byte
  | [] => none
  | i :: rest =>
    match lastOperand8 n rest with
    | some b => some b
    | none =>
      match i with
      | .lzc8 m b => if m = n then some b else none
      | .lzc16 _ _ => none

/-- The operand instance `n` of the 16-bit module was last given in a list of evaluations (R86). -/
def lastOperand16 (n : Nat) : List Instr → Option Half
  | [] => none
  | i :: rest =>
    match lastOperand16 n rest with
    | some w => some w
    | none =>
      match i with
      | .lzc8 _ _ => none
      | .lzc16 m w => if m = n then some w else none

end Sys2Proof.Machine
end

