-- ==== Sys2Proof/Certificates/Slice0/Obligations.lean ====
section
/-! DEFINITION. The statements for the provers. A clause that rests on a choice or an inference says so in its docstring. -/

open Sys2Proof Sys2Proof.Machine

/-! ## The two operations -/

/-- R40. `LZC8` completes for every operand in every state. The count given on the port is the sum of the rule's pseudocode, written
out here with its literals, and is `clz_8` of the operand; the corner cases of the rule follow it. Nothing else changes, and the
hardware writes no flag (R13). That the count stands in `given` is the model's choice (log 1), and so is that exec touches no wire and
leaves every port, that of instance `n` too, as the host drives it (log 7). The pseudocode's fourth term is the spec's resolution of its conflict C1 (D5), the 4-bit result its D3. -/
def Obligations.Lzc8CompletesWithPseudocodeCount : Prop :=
  ∀ (n : Nat) (b : Byte) (s : State),
    let s1 := b &&& 0xF0#8 ≠ 0#8
    let x1 := if s1 then b >>> 4 else b
    let c1 := if s1 then 0#4 else 4#4
    let s2 := x1 &&& 0x0C#8 ≠ 0#8
    let x2 := if s2 then x1 >>> 2 else x1
    let c2 := if s2 then 0#4 else 2#4
    let s3 := x2 &&& 0x02#8 ≠ 0#8
    let c3 := if s3 then 0#4 else 1#4
    let z := x2 = 0#8
    let c4 := if z then 1#4 else 0#4
    let c := c1 + c2 + c3 + c4
    (∃ t, exec (.lzc8 n b) s = .next t ∧
      t.host.given = some (.eight n c) ∧
      (∀ m, t.ports8 m = s.ports8 m) ∧
      (∀ m, t.ports16 m = s.ports16 m) ∧
      t.host.pending = s.host.pending) ∧
    c.toNat = clz8 b ∧
    c1.toNat + c2.toNat + c3.toNat + c4.toNat = c.toNat ∧ c.toNat ≤ 8 ∧
    (b = 0#8 → c = 8#4 ∧ c1 = 4#4 ∧ c2 = 2#4 ∧ c3 = 1#4 ∧ c4 = 1#4) ∧
    (b.getLsbD 7 = true → c = 0#4) ∧
    (b = 0x01#8 → c = 7#4) ∧
    (b ≠ 0#8 → c.toNat ≤ 7) ∧
    (b = 0x10#8 → c = 3#4)

/-- R50. `LZC16` completes for every operand in every state. The count given on the port is the sum of the rule's pseudocode, written
out here with its literals around one inner `LZC8`, and is `clz_16` of the operand; the corner cases of the rule follow it.
Nothing else changes. That the count stands in `given` is the model's choice (log 1), and so is that exec touches no wire and leaves
every port, that of instance `n` too, as the host drives it (log 7). The 5-bit result is the spec's D3. -/
def Obligations.Lzc16CompletesWithPseudocodeCount : Prop :=
  ∀ (n : Nat) (w : Half) (s : State),
    let s0 := w &&& 0xFF00#16 ≠ 0#16
    let y := if s0 then w >>> 8 else w
    let c0 := if s0 then 0#5 else 8#5
    let n8 := countLeadingZeros8 (y.setWidth 8)
    let c := c0 + n8.setWidth 5
    (∃ t, exec (.lzc16 n w) s = .next t ∧
      t.host.given = some (.sixteen n c) ∧
      (∀ m, t.ports8 m = s.ports8 m) ∧
      (∀ m, t.ports16 m = s.ports16 m) ∧
      t.host.pending = s.host.pending) ∧
    c.toNat = clz16 w ∧
    y.toNat ≤ 255 ∧
    c0.toNat + n8.toNat = c.toNat ∧ c.toNat ≤ 16 ∧
    (w = 0#16 → c = 16#5 ∧ c0 = 8#5 ∧ n8 = 8#4) ∧
    (w = 0x0001#16 → c = 15#5) ∧
    (w = 0x8000#16 → c = 0#5 ∧ y = 0x0080#16) ∧
    (w = 0x00FF#16 → c = 8#5 ∧ c0 = 8#5 ∧ n8 = 0#4) ∧
    (w = 0x0100#16 → c = 7#5) ∧
    (w = 0x01FF#16 → c = 7#5) ∧
    (∀ v : Half, s0 → v >>> 8 = w >>> 8 → countLeadingZeros16 v = c)

/-! ## The stages of LZC8 -/

/-- R41, the nets of stage 1 and the two readings of `x1` (the second is the spec's own inference). -/
def Obligations.Lzc8NibbleSelection : Prop :=
  ∀ b : Byte,
    ((nets8 b).s1 = true ↔ b &&& 0xF0#8 ≠ 0#8) ∧
    (nets8 b).s1 = (b.getLsbD 7 || b.getLsbD 6 || b.getLsbD 5 || b.getLsbD 4) ∧
    ((nets8 b).s1 = true → (nets8 b).x1 = b >>> 4 ∧ (nets8 b).c1 = 0#4) ∧
    ((nets8 b).s1 = false → (nets8 b).x1 = b ∧ (nets8 b).c1 = 4#4) ∧
    (nets8 b).x1.toNat ≤ 15 ∧
    (nets8 b).x1.toNat = (if b.toNat / 16 ≠ 0 then b.toNat / 16 else b.toNat % 16) ∧
    ((nets8 b).x1 = 0#8 ↔ b = 0#8)

/-- R42, the nets of stage 2: one set bit under the mask is enough (N8), and the window keeps the zero operand apart (the spec's
own inference). -/
def Obligations.Lzc8PairSelection : Prop :=
  ∀ b : Byte,
    ((nets8 b).s2 = true ↔ (nets8 b).x1 &&& 0x0C#8 ≠ 0#8) ∧
    (nets8 b).s2 = ((nets8 b).x1.getLsbD 3 || (nets8 b).x1.getLsbD 2) ∧
    ((nets8 b).s2 = true → (nets8 b).x2 = (nets8 b).x1 >>> 2 ∧ (nets8 b).c2 = 0#4) ∧
    ((nets8 b).s2 = false → (nets8 b).x2 = (nets8 b).x1 ∧ (nets8 b).c2 = 2#4) ∧
    (nets8 b).x2.toNat ≤ 3 ∧
    (nets8 b).x2.toNat =
      (if (nets8 b).x1.toNat / 4 ≠ 0 then (nets8 b).x1.toNat / 4 else (nets8 b).x1.toNat % 4) ∧
    ((nets8 b).x2 = 0#8 ↔ b = 0#8)

/-- R43, the nets of stage 3. Nothing is shifted: stage 3 has no window of its own. -/
def Obligations.Lzc8TopBitTest : Prop :=
  ∀ b : Byte,
    ((nets8 b).s3 = true ↔ (nets8 b).x2 &&& 0x02#8 ≠ 0#8) ∧
    (nets8 b).s3 = (nets8 b).x2.getLsbD 1 ∧
    ((nets8 b).s3 = true → (nets8 b).c3 = 0#4) ∧
    ((nets8 b).s3 = false → (nets8 b).c3 = 1#4)

/-- R44, the zero-operand term and the forms the rule calls equal. The form `x2 == 0` is the spec's own choice D5. -/
def Obligations.Lzc8ZeroOperandTerm : Prop :=
  ∀ b : Byte,
    ((nets8 b).z = true ↔ (nets8 b).x2 = 0#8) ∧
    (nets8 b).z = !((nets8 b).x2.getLsbD 1 || (nets8 b).x2.getLsbD 0) ∧
    ((nets8 b).z = true ↔ (nets8 b).s3 = false ∧ (nets8 b).x2 &&& 0x01#8 = 0#8) ∧
    ((nets8 b).z = true ↔ b = 0#8) ∧
    ((nets8 b).z = true → (nets8 b).c4 = 1#4) ∧
    ((nets8 b).z = false → (nets8 b).c4 = 0#4)

/-- R45, the sum, and its adder-free forms (the spec's own inference). -/
def Obligations.Lzc8SumForms : Prop :=
  ∀ b : Byte,
    let bits : Count4 :=
      BitVec.ofBool false ++ BitVec.ofBool (!(nets8 b).s1) ++ BitVec.ofBool (!(nets8 b).s2) ++ BitVec.ofBool (!(nets8 b).s3)
    countLeadingZeros8 b = (nets8 b).c1 + (nets8 b).c2 + (nets8 b).c3 + (nets8 b).c4 ∧
    (b ≠ 0#8 → countLeadingZeros8 b = bits) ∧
    (b = 0#8 → countLeadingZeros8 b = 8#4) ∧
    countLeadingZeros8 b = bits + (if (nets8 b).z then 1#4 else 0#4)

/-- C1: the source's three steps alone give the right count for every operand but 0, where they give 7. -/
def Obligations.ThreeStepsMissOnlyTheZeroOperand : Prop :=
  ∀ b : Byte,
    ((nets8 b).c1 + (nets8 b).c2 + (nets8 b).c3 = countLeadingZeros8 b ↔ b ≠ 0#8) ∧
    (b = 0#8 → (nets8 b).c1 + (nets8 b).c2 + (nets8 b).c3 = 7#4)

/-! ## What LZC8 computes -/

/-- R46 (the spec's own inference): the staged form is `clz_8`, stage by stage, and is the table of ranges. -/
def Obligations.Lzc8StagedFormIsReference : Prop :=
  ∀ b : Byte,
    clz8 b = (nets8 b).c1.toNat + clzWindow 4 (nets8 b).x1.toNat ∧
    clzWindow 4 (nets8 b).x1.toNat = (nets8 b).c2.toNat + clzWindow 2 (nets8 b).x2.toNat ∧
    clzWindow 2 (nets8 b).x2.toNat = (nets8 b).c3.toNat + (nets8 b).c4.toNat ∧
    (countLeadingZeros8 b).toNat = clz8 b ∧
    (countLeadingZeros8 b).toNat =
      (if b.toNat = 0 then 8 else if b.toNat ≤ 0x01 then 7 else if b.toNat ≤ 0x03 then 6
        else if b.toNat ≤ 0x07 then 5 else if b.toNat ≤ 0x0F then 4 else if b.toNat ≤ 0x1F then 3
        else if b.toNat ≤ 0x3F then 2 else if b.toNat ≤ 0x7F then 1 else 0)

/-- R47: the properties the source states of the 8-bit count, the stronger forms of monotonicity, and that properties 2 and 3 fix
the count (the last two are the spec's own inference). -/
def Obligations.Lzc8SourceProperties : Prop :=
  ∀ b : Byte,
    let c := (countLeadingZeros8 b).toNat
    c ≤ 8 ∧
    b.toNat < 2 ^ (8 - c) ∧
    (b = 0#8 → c = 8) ∧
    (b ≠ 0#8 → c ≤ 7 ∧ b.getLsbD (7 - c) = true ∧ ∀ i, 7 - c < i → b.getLsbD i = false) ∧
    (∀ a : Byte, a.toNat ≤ b.toNat → c ≤ (countLeadingZeros8 a).toNat) ∧
    (∀ (a : Byte) (i : Nat), i < 8 → (∀ k, i ≤ k → a.getLsbD k = false) → b = a ||| (1#8 <<< i) →
      a ≠ 0#8 → c < (countLeadingZeros8 a).toNat) ∧
    (∀ d : Nat, d ≤ 8 → (b = 0#8 → d = 8) →
      (b ≠ 0#8 → d ≤ 7 ∧ b.getLsbD (7 - d) = true ∧ ∀ i, 7 - d < i → b.getLsbD i = false) → d = c)

/-- R33, R37 and U4 (the spec's own inference; the width is D3): which patterns an evaluation gives in 4 bits (where they stand is
log 1). -/
def Obligations.Lzc8ResultPatterns : Prop :=
  (∀ b : Byte, countLeadingZeros8 b ≤ 8#4 ∧ ((countLeadingZeros8 b).getLsbD 3 = true ↔ b = 0#8)) ∧
  (∀ c : Count4, c ≤ 8#4 → ∃ b : Byte, countLeadingZeros8 b = c) ∧
  (∀ (n : Nat) (b : Byte) (s : State), ∃ t, exec (.lzc8 n b) s = .next t ∧ ∃ k, t.givenAt .eight n = some k ∧ k ≤ 8)

/-- R49 (the spec's own inference): no sum wraps, no carry is lost, and each shift moves down a nonzero group. -/
def Obligations.Lzc8ArithmeticNeverWraps : Prop :=
  ∀ b : Byte,
    (countLeadingZeros8 b).toNat =
      (nets8 b).c1.toNat + (nets8 b).c2.toNat + (nets8 b).c3.toNat + (nets8 b).c4.toNat ∧
    (nets8 b).c1.toNat + (nets8 b).c2.toNat + (nets8 b).c3.toNat + (nets8 b).c4.toNat ≤ 8 ∧
    ((nets8 b).x1 ≠ b → b >>> 4 ≠ 0#8) ∧
    ((nets8 b).x2 ≠ (nets8 b).x1 → (nets8 b).x1 >>> 2 ≠ 0#8)

/-! ## The stages of LZC16 and what it computes -/

/-- R21: the halves of the 16-bit operand are named by significance, and the rule's scenarios fix the reading. -/
def Obligations.HalvesOfTheOperand : Prop :=
  (∀ w : Half, highByte w = w.extractLsb' 8 8 ∧ lowByte w = w.extractLsb' 0 8 ∧ highByte w ++ lowByte w = w ∧
    (highByte w).toNat = w.toNat / 256 ∧ (lowByte w).toNat = w.toNat % 256) ∧
  highByte 0x00FF#16 = 0x00#8 ∧ lowByte 0x00FF#16 = 0xFF#8 ∧ countLeadingZeros16 0x00FF#16 = 8#5 ∧
  (0x8000#16).getLsbD 15 = true ∧ countLeadingZeros16 0x8000#16 = 0#5

/-- R51 and R52 (the ranges are the spec's own inference): the byte selection, and the inner `LZC8` on the selected byte. -/
def Obligations.Lzc16ByteSelection : Prop :=
  ∀ w : Half,
    ((nets16 w).s0 = true ↔ w &&& 0xFF00#16 ≠ 0#16) ∧
    ((nets16 w).s0 = true ↔ highByte w ≠ 0#8) ∧
    ((nets16 w).s0 = true → (nets16 w).y = w >>> 8 ∧ (nets16 w).c0 = 0#5 ∧ trunc8 (nets16 w).y = highByte w) ∧
    ((nets16 w).s0 = false → (nets16 w).y = w ∧ (nets16 w).c0 = 8#5 ∧ trunc8 (nets16 w).y = lowByte w) ∧
    (nets16 w).y.toNat = (trunc8 (nets16 w).y).toNat ∧
    ((nets16 w).y = 0#16 ↔ w = 0#16) ∧
    (nets16 w).n8 = countLeadingZeros8 (trunc8 (nets16 w).y) ∧
    ((nets16 w).s0 = true → (nets16 w).n8.toNat ≤ 7) ∧ (nets16 w).n8.toNat ≤ 8

/-- R53 (the second part is the spec's own inference): the sum and its adder-free form. -/
def Obligations.Lzc16SumForms : Prop :=
  ∀ w : Half,
    countLeadingZeros16 w = (nets16 w).c0 + (nets16 w).n8.setWidth 5 ∧
    ((nets16 w).s0 = true → countLeadingZeros16 w = 0#1 ++ (nets16 w).n8) ∧
    ((nets16 w).s0 = false → (nets16 w).n8 ≠ 8#4 → countLeadingZeros16 w = 0#1 ++ (1#1 ++ (nets16 w).n8.setWidth 3)) ∧
    ((nets16 w).s0 = false → (nets16 w).n8 = 8#4 → countLeadingZeros16 w = 16#5)

/-- R54: the source's composition law and range, and (the spec's own inference) that the composed form is `clz_16` and the
rule's table of ranges. -/
def Obligations.Lzc16CompositionLaw : Prop :=
  ∀ w : Half,
    (highByte w ≠ 0#8 → (countLeadingZeros16 w).toNat = (countLeadingZeros8 (highByte w)).toNat) ∧
    (highByte w = 0#8 → (countLeadingZeros16 w).toNat = 8 + (countLeadingZeros8 (lowByte w)).toNat) ∧
    (countLeadingZeros16 w).toNat ≤ 16 ∧
    (countLeadingZeros16 w).toNat = clz16 w ∧
    (∀ k : Nat, k < 16 → 2 ^ k ≤ w.toNat → w.toNat < 2 ^ (k + 1) → (countLeadingZeros16 w).toNat = 15 - k) ∧
    (w.toNat = 0 → (countLeadingZeros16 w).toNat = 16)

/-- R54 (the spec's own inference, N11): the properties of R47 carried over to 16 bits. -/
def Obligations.Lzc16CarriedOverProperties : Prop :=
  ∀ w : Half,
    let c := (countLeadingZeros16 w).toNat
    (w ≠ 0#16 → c ≤ 15 ∧ w.getLsbD (15 - c) = true ∧ ∀ i, 15 - c < i → w.getLsbD i = false) ∧
    w.toNat < 2 ^ (16 - c) ∧
    (∀ v : Half, v.toNat ≤ w.toNat → c ≤ (countLeadingZeros16 v).toNat)

/-- R34 and U4 (the spec's own inference; the width is D3): which patterns an evaluation gives in 5 bits (where they stand is
log 1). -/
def Obligations.Lzc16ResultPatterns : Prop :=
  (∀ w : Half, countLeadingZeros16 w ≤ 16#5 ∧ ((countLeadingZeros16 w).getLsbD 4 = true ↔ w = 0#16)) ∧
  (∀ c : Count5, c ≤ 16#5 → ∃ w : Half, countLeadingZeros16 w = c) ∧
  (∀ (n : Nat) (w : Half) (s : State), ∃ t, exec (.lzc16 n w) s = .next t ∧ ∃ k, t.givenAt .sixteen n = some k ∧ k ≤ 16)

/-- R56 (the spec's own inference): the sum never wraps and the truncation loses nothing. -/
def Obligations.Lzc16ArithmeticNeverWraps : Prop :=
  ∀ w : Half,
    (countLeadingZeros16 w).toNat = (nets16 w).c0.toNat + (nets16 w).n8.toNat ∧
    (nets16 w).c0.toNat + (nets16 w).n8.toNat ≤ 16 ∧
    (trunc8 (nets16 w).y).setWidth 16 = (nets16 w).y ∧
    ((nets16 w).y ≠ w → w >>> 8 ≠ 0#16)

/-! ## Encoding -/

/-- R31, R32: what the host drives for an operation is read as that operation, and nothing else is. The number of an
instance and the list of levels are the model's own (log 2, log 5). -/
def Obligations.DecodeInvertsEncode : Prop :=
  (∀ i : Instr, decode (encode i) = .instr i) ∧
  (∀ (p : Presentation) (i : Instr), decode p = .instr i → encode i = p)

/-- Every bit of a port is its own bit of the operand (R6, R31, R32). -/
def Obligations.OperandBitsAreTheLevels : Prop :=
  (∀ (n : Nat) (b : Byte) (k : Nat), k < 8 →
    (encode (.lzc8 n b)).levels[k]? = some (if b.getLsbD k then Level.high else Level.low)) ∧
  (∀ (n : Nat) (w : Half) (k : Nat), k < 16 →
    (encode (.lzc16 n w)).levels[k]? = some (if w.getLsbD k then Level.high else Level.low))

/-- Operands written out bit by bit from R31 and R32, bit 0 first, are read as the operation they stand for. -/
def Obligations.WrittenOutOperandsDecode : Prop :=
  decode ⟨.eight, 0, [.low, .low, .low, .low, .high, .low, .low, .low]⟩ = .instr (.lzc8 0 0x10#8) ∧
  decode ⟨.eight, 3, [.low, .high, .low, .high, .low, .high, .low, .low]⟩ = .instr (.lzc8 3 0x2A#8) ∧
  decode ⟨.sixteen, 0, [.low, .low, .high, .low, .high, .high, .low, .low, .low, .high, .low, .low, .high, .low, .low, .low]⟩ =
    .instr (.lzc16 0 0x1234#16)

/-- The words of spec/opcode_table.json (R30): each is read as the operation of its length on site 0 (log 9), and a step with the
word presented first is that operation on the held operand (log 3, log 7). -/
def Obligations.TableWordsRun : Prop :=
  (∀ b : Byte, encodeTableWord (.lzc8 0 b) = (8, b.toNat) ∧ decodeTableWord 8 b.toNat = some (.lzc8 0 b)) ∧
  (∀ w : Half, encodeTableWord (.lzc16 0 w) = (16, w.toNat) ∧ decodeTableWord 16 w.toNat = some (.lzc16 0 w)) ∧
  (∀ (b : Byte) (s : State), step (s.withFetchWord 8 b.toNat) = exec (.lzc8 0 b) (s.hold8 0 b)) ∧
  (∀ (w : Half) (s : State), step (s.withFetchWord 16 w.toNat) = exec (.lzc16 0 w) (s.hold16 0 w))

/-- R37: every pattern of zeros and ones on a port is a legal operand of that port's operation, no operation is ill formed, each
has a count in every state, and the zero operand has the counts 8 and 16. -/
def Obligations.EveryOperandIsLegal : Prop :=
  (∀ p : Presentation, p.levels.length = p.block.width → (∀ l ∈ p.levels, l = .low ∨ l = .high) →
    ∃ i, decode p = .instr i ∧ i.block = p.block ∧ i.site = p.site) ∧
  (∀ i : Instr, i.wellFormed = true) ∧
  (∀ (i : Instr) (s : State), ∃ t c, exec i s = .next t ∧ t.givenAt i.block i.site = some c) ∧
  (∀ (n : Nat) (s : State), ∃ t, exec (.lzc8 n 0#8) s = .next t ∧ t.givenAt .eight n = some 8) ∧
  (∀ (n : Nat) (s : State), ∃ t, exec (.lzc16 n 0#16) s = .next t ∧ t.givenAt .sixteen n = some 16)

/-- R57 and U1: no operand of another width is read, whatever module it is wired to, and no operation has another width. The name
of the rejection is the model's choice (log 5), and so is that a table word of another length is read as nothing (log 9). -/
def Obligations.NoOtherWidthIsRead : Prop :=
  (∀ p : Presentation, p.levels.length ≠ 8 → p.levels.length ≠ 16 → decode p = .rejected .operandWidth) ∧
  (∀ nbits w : Nat, nbits ≠ 8 → nbits ≠ 16 → decodeTableWord nbits w = none) ∧
  (∀ i : Instr, i.block.width = 8 ∨ i.block.width = 16) ∧
  (∀ (p : Presentation) (i : Instr), decode p = .instr i → p.levels.length = i.block.width)

/-! ## The step -/

/-- R86: a step is the evaluation of the operand the host presents next. Taking it from the list is the model's choice (log 3),
and so is that the host holds it on the wires (log 7). -/
def Obligations.StepRunsDecodedOperation : Prop :=
  ∀ (s : State) (p : Presentation) (rest : List Presentation) (i : Instr),
    s.host.pending = p :: rest → decode p = .instr i →
    step s = exec i ((s.withPending rest).hold i)

/-- R86 with R8: whatever the state, presenting a driven operand of the port's width makes the step give the reference count of the
operand, which then stands on the output port of the instance it was presented to. The list of presentations is the model's choice
(log 3), and so are where the count given stands (log 1), the form of a presentation (log 5) and that the operand is still held when the step ends (log 7). -/
def Obligations.StepGivesReferenceCount : Prop :=
  ∀ (s : State) (p : Presentation) (rest : List Presentation) (v : Nat),
    s.host.pending = p :: rest → p.levels.length = p.block.width → valueOf p.levels = some v →
    ∃ t, step s = .next t ∧ t.host.pending = rest ∧
      t.givenAt p.block p.site = some (clzWindow p.block.width v) ∧
      t.countAt p.block p.site = some (clzWindow p.block.width v)

/-- R87, U2: an operand of the port's width with a bit that is neither 0 nor 1 gets no count; the step is refused (that it is refused is
the spec's own decision D4, the name of the refusal log 5, the list of presentations log 3). -/
def Obligations.UndrivenOperandIsRefused : Prop :=
  ∀ (s : State) (p : Presentation) (rest : List Presentation),
    s.host.pending = p :: rest → p.levels.length = p.block.width →
    (∃ l ∈ p.levels, l = .undriven ∨ l = .unknown ∨ l = .highImpedance) →
    step s = .refused .operandBit

/-- The one outcome of R60: no operand faults; each operation in every state gives a count in its module's range, no step ends in a
fault, and every well-formed presentation ends in a step that gives a count. Where the count stands is the model's choice (log 1), as
are the list of presentations (log 3) and the form of a presentation with its checks (log 5). -/
def Obligations.NoOperandFaults : Prop :=
  (∀ (i : Instr) (s : State), ∃ t c,
    exec i s = .next t ∧ t.givenAt i.block i.site = some c ∧ c ≤ i.block.maxCount) ∧
  (∀ (s : State) (f : Fault), step s ≠ .fault f) ∧
  (∀ (s : State) (p : Presentation) (rest : List Presentation),
    s.host.pending = p :: rest → p.wellFormed = true →
    ∃ t c, step s = .next t ∧ t.givenAt p.block p.site = some c ∧ c ≤ p.block.maxCount)

/-- Exactly when a step ends in a next state, and which refusal it ends in otherwise (R57, R86, R87; `nothingPresented` and the
order of the checks are the model's own, log 3 and log 5). -/
def Obligations.StepStopsExactlyAtTheBoundary : Prop :=
  (∀ s : State, (∃ t, step s = .next t) ↔ ∃ p rest, s.host.pending = p :: rest ∧ p.wellFormed = true) ∧
  (∀ s : State, step s = .refused .nothingPresented ↔ s.host.pending = []) ∧
  (∀ s : State, step s = .refused .operandWidth ↔ ∃ p rest, s.host.pending = p :: rest ∧ p.widthOk = false) ∧
  (∀ s : State, step s = .refused .operandBit ↔
    ∃ p rest, s.host.pending = p :: rest ∧ p.widthOk = true ∧ p.driven = false)

/-! ## Independence -/

/-- What R10 asks: the type of the hardware's state has one value; what an evaluation gives depends on its operand and on nothing
else, neither on the state it starts in nor on the instance that makes it; and an evaluation leaves nothing behind for a later one,
which ends in the very state it would have ended in without it. That the hardware's part stands beside the host's side, and that the
count given is replaced, is the model's choice (log 1); so are the number of an instance (log 2) and that exec touches no wire
(log 7). -/
def Obligations.EvaluationLeavesNothingBehind : Prop :=
  (∀ h h' : Hardware, h = h') ∧
  (∀ (n m : Nat) (b : Byte) (s s' : State), ∃ t t' c,
    exec (.lzc8 n b) s = .next t ∧ exec (.lzc8 m b) s' = .next t' ∧ t.hardware = t'.hardware ∧
    t.host.given = some (.eight n c) ∧ t'.host.given = some (.eight m c)) ∧
  (∀ (n m : Nat) (w : Half) (s s' : State), ∃ t t' c,
    exec (.lzc16 n w) s = .next t ∧ exec (.lzc16 m w) s' = .next t' ∧ t.hardware = t'.hardware ∧
    t.host.given = some (.sixteen n c) ∧ t'.host.given = some (.sixteen m c)) ∧
  (∀ (i j : Instr) (s : State), ∃ t u, exec j s = .next t ∧ exec i t = .next u ∧ exec i s = .next u)

/-- The same of steps: whatever operand was presented before, and to whichever instance, a step gives the same count as without
it. Presenting is the model's own (log 3), as are where the count given stands (log 1), the number of an instance (log 2) and that the operand is still held when the step
ends (log 7). -/
def Obligations.EarlierStepsChangeNoCount : Prop :=
  ∀ (i j : Instr) (s : State), ∃ t u v,
    step (s.presentFirst (encode j)) = .next t ∧
    step (t.presentFirst (encode i)) = .next u ∧
    step (s.presentFirst (encode i)) = .next v ∧
    u.host.given = v.host.given ∧
    u.countAt i.block i.site = v.countAt i.block i.site ∧
    u.countAt i.block i.site = u.givenAt i.block i.site

/-- What R26, R70 and R14 ("the same in every instance and at every time") ask: (a) the count depends on the operand only, whatever
the state and on whichever instance of the module; (b) an earlier evaluation, whatever it was and on whichever instance, cannot
change it; (c) an evaluation changes no port of any instance. Where the count stands is the model's choice (log 1), as are the number
of an instance (log 2) and (c) for the instance that evaluates, since exec touches no wire (log 7). -/
def Obligations.CountDependsOnOperandOnly : Prop :=
  (∀ (n m : Nat) (b : Byte) (s s' : State), ∃ t t' c,
    exec (.lzc8 n b) s = .next t ∧ exec (.lzc8 m b) s' = .next t' ∧
    t.givenAt .eight n = some c ∧ t'.givenAt .eight m = some c) ∧
  (∀ (n m : Nat) (w : Half) (s s' : State), ∃ t t' c,
    exec (.lzc16 n w) s = .next t ∧ exec (.lzc16 m w) s' = .next t' ∧
    t.givenAt .sixteen n = some c ∧ t'.givenAt .sixteen m = some c) ∧
  (∀ (i j : Instr) (s : State), ∃ t u v c,
    exec j s = .next t ∧ exec i t = .next u ∧ exec i s = .next v ∧
    u.givenAt i.block i.site = some c ∧ v.givenAt i.block i.site = some c) ∧
  (∀ (j : Instr) (s : State), ∃ t, exec j s = .next t ∧
    (∀ n, t.ports8 n = s.ports8 n) ∧ (∀ n, t.ports16 n = s.ports16 n) ∧
    (∀ k n, t.countAt k n = s.countAt k n))

/-- The frame of a step (R70, R86): a step that ends in a next state changes the ports of one instance, and every other instance
of either module has what it had; the host's further presentations stand. Numbers of instances and the list are the model's own
(log 2, log 3). That the other ports stand rests on the host's going on driving the other instances, the model's choice and unsafe
(log 7). -/
def Obligations.StepChangesOnlyOneInstance : Prop :=
  ∀ (s t : State), step s = .next t →
    ∃ p rest i, s.host.pending = p :: rest ∧ decode p = .instr i ∧ t.host.pending = rest ∧
      (∀ n, i.block = .sixteen ∨ i.site ≠ n → t.ports8 n = s.ports8 n) ∧
      (∀ n, i.block = .eight ∨ i.site ≠ n → t.ports16 n = s.ports16 n)

/-- Evaluations on different wires leave the same ports in either order, so that all may run "at the same time" (R26, R70). The
premise is the canonical form, which every step keeps (log 2); that such evaluations stand one after another is log 4. -/
def Obligations.SeparateEvaluationsCommute : Prop :=
  ∀ (i j : Instr) (rest : List Presentation) (s : State), s.sorted = true → apart i j →
    ∃ t u : State,
      Host.Core.run Sys2Proof.core 2 (s.withPending (encode i :: encode j :: rest)) = .next t ∧
      Host.Core.run Sys2Proof.core 2 (s.withPending (encode j :: encode i :: rest)) = .next u ∧
      t.hardware = u.hardware ∧ t.host.wires8 = u.host.wires8 ∧ t.host.wires16 = u.host.wires16 ∧
      t.host.pending = u.host.pending ∧ (∀ k n, t.countAt k n = u.countAt k n)

/-- Evaluating the same operand again on the same instance leaves the same state (R24, R48, R55; D8), and so does presenting it
again (log 3). -/
def Obligations.RepeatedEvaluationChangesNothing : Prop :=
  (∀ (i : Instr) (s : State), ∃ t, exec i s = .next t ∧ exec i t = .next t) ∧
  (∀ (i : Instr) (s : State), ∃ t,
    step (s.presentFirst (encode i)) = .next t ∧ step (t.presentFirst (encode i)) = .next t)

/-- R82: from the state in which nothing was ever driven, the first evaluation gives what the same evaluation gives from any
other state, with no step before it. -/
def Obligations.FirstEvaluationObeysTheSameRule : Prop :=
  ∀ (i : Instr) (s : State), ∃ t u c,
    step (State.reset.presentFirst (encode i)) = .next t ∧ step (s.presentFirst (encode i)) = .next u ∧
    t.givenAt i.block i.site = some c ∧ u.givenAt i.block i.site = some c

/-- A sequence of steps is a sequence of independent evaluations (R86). Over any list of evaluations, on any instances, from any
state, the run ends with every instance showing its last operand and that operand's count, and an instance that was given no
operand as it was; and the last step gave the count of the last operation. That the host goes on driving an operand until it
presents another is the model's choice and unsafe (log 7); the list of presentations (log 3) and where the count given
stands (log 1) are the model's choice. -/
def Obligations.SequencesAreIndependentEvaluations : Prop :=
  ∀ (prog : List Instr) (rest : List Presentation) (s : State),
    s.host.pending = prog.map encode ++ rest →
    ∃ t : State, Host.Core.run Sys2Proof.core prog.length s = .next t ∧ t.host.pending = rest ∧
      (∀ n, t.ports8 n =
        ((lastOperand8 n prog).map (fun b => ({ byteI := b, countO := countLeadingZeros8 b } : Ports8))).or (s.ports8 n)) ∧
      (∀ n, t.ports16 n =
        ((lastOperand16 n prog).map (fun w => ({ wordI := w, countO := countLeadingZeros16 w } : Ports16))).or (s.ports16 n)) ∧
      (∀ i, prog.getLast? = some i →
        t.givenAt i.block i.site = some (countOf i.block (encodeTableWord i).2))

/-! ## Invariant and reset -/

/-- R16, R17, R86: every step keeps the canonical form (log 2), and keeps the count the host was given last (log 1) the one on the output
port of the instance that gave it, that is, the count of the operand on its input port (held there by log 7). -/
def Obligations.StepKeepsOutputsFollowingOperands : Prop :=
  ∀ (s t : State), s.Inv → step s = .next t → t.Inv

/-- R19, R81: at reset the invariant holds, no operand is driven on any instance, no output has a meaning (log 8), nothing is
presented (log 3) and no count was given. -/
def Obligations.ResetHoldsNothing : Prop :=
  State.reset.Inv ∧ (∀ n, State.reset.ports8 n = none) ∧ (∀ n, State.reset.ports16 n = none) ∧
  (∀ k n, State.reset.countAt k n = none) ∧ (∀ k n, State.reset.givenAt k n = none) ∧ State.reset.host.pending = []

/-! ## The written form -/

/-- R38: a written evaluation is read back, and only evaluations inside the grammar's ranges are read (spacing and case are the
model's own, log 10). -/
def Obligations.WrittenFormIsReadBack : Prop :=
  (∀ e : Evaluation, e.wellFormed = true → readEvaluation (writeEvaluation e) = some e) ∧
  (∀ (cs : List Char) (e : Evaluation), readEvaluation cs = some e → e.wellFormed = true)

/-- The thirteen examples of the source (spec/95_test_vectors.md section 1; four of the nine stand there twice), as evaluations. -/
def Obligations.SourceExamplesHold : Prop :=
  ∀ e ∈ ([⟨.eight, 0x00, 8⟩, ⟨.eight, 0x80, 0⟩, ⟨.eight, 0xFF, 0⟩, ⟨.eight, 0x01, 7⟩, ⟨.eight, 0x10, 3⟩,
      ⟨.sixteen, 0x0000, 16⟩, ⟨.sixteen, 0x0001, 15⟩, ⟨.sixteen, 0x8000, 0⟩, ⟨.sixteen, 0x00FF, 8⟩] : List Evaluation),
    evaluationHolds e = true
end

