-- ==== Sys2Proof/Laws/State.lean ====
section
/-! SUPPORT. One lemma per field per update of State, each true by rfl. -/

namespace Sys2Proof.Machine

@[simp] theorem give_wires8 (s : State) (g : Given) : (s.give g).host.wires8 = s.host.wires8 := rfl

@[simp] theorem give_wires16 (s : State) (g : Given) : (s.give g).host.wires16 = s.host.wires16 := rfl

@[simp] theorem give_pending (s : State) (g : Given) : (s.give g).host.pending = s.host.pending := rfl

@[simp] theorem give_given (s : State) (g : Given) : (s.give g).host.given = some g := rfl

@[simp] theorem hold8_wires8 (s : State) (n : Nat) (b : Byte) :
    (s.hold8 n b).host.wires8 = bankPut s.host.wires8 n b := rfl

@[simp] theorem hold8_wires16 (s : State) (n : Nat) (b : Byte) : (s.hold8 n b).host.wires16 = s.host.wires16 := rfl

@[simp] theorem hold8_pending (s : State) (n : Nat) (b : Byte) : (s.hold8 n b).host.pending = s.host.pending := rfl

@[simp] theorem hold8_given (s : State) (n : Nat) (b : Byte) : (s.hold8 n b).host.given = s.host.given := rfl

@[simp] theorem hold16_wires8 (s : State) (n : Nat) (w : Half) : (s.hold16 n w).host.wires8 = s.host.wires8 := rfl

@[simp] theorem hold16_wires16 (s : State) (n : Nat) (w : Half) :
    (s.hold16 n w).host.wires16 = bankPut s.host.wires16 n w := rfl

@[simp] theorem hold16_pending (s : State) (n : Nat) (w : Half) : (s.hold16 n w).host.pending = s.host.pending := rfl

@[simp] theorem hold16_given (s : State) (n : Nat) (w : Half) : (s.hold16 n w).host.given = s.host.given := rfl

@[simp] theorem withPending_wires8 (s : State) (ps : List Presentation) :
    (s.withPending ps).host.wires8 = s.host.wires8 := rfl

@[simp] theorem withPending_wires16 (s : State) (ps : List Presentation) :
    (s.withPending ps).host.wires16 = s.host.wires16 := rfl

@[simp] theorem withPending_pending (s : State) (ps : List Presentation) : (s.withPending ps).host.pending = ps := rfl

@[simp] theorem withPending_given (s : State) (ps : List Presentation) :
    (s.withPending ps).host.given = s.host.given := rfl

@[simp] theorem presentFirst_wires8 (s : State) (p : Presentation) :
    (s.presentFirst p).host.wires8 = s.host.wires8 := rfl

@[simp] theorem presentFirst_wires16 (s : State) (p : Presentation) :
    (s.presentFirst p).host.wires16 = s.host.wires16 := rfl

@[simp] theorem presentFirst_pending (s : State) (p : Presentation) :
    (s.presentFirst p).host.pending = p :: s.host.pending := rfl

@[simp] theorem presentFirst_given (s : State) (p : Presentation) :
    (s.presentFirst p).host.given = s.host.given := rfl

end Sys2Proof.Machine
end

