-- ==== Sys2Proof/Laws/Bank.lean ====
section
/-! SUPPORT. What putting into a bank does: the number put reads back, every other number reads as before, and the canonical
form and any property of all entries are kept. -/

namespace Sys2Proof.Machine

variable {α : Type}

theorem bankGet_bankPut_same (l : Bank α) (n : Nat) (x : α) : bankGet (bankPut l n x) n = some x := by
  induction l with
  | nil => simp [bankPut, bankGet]
  | cons q rest ih =>
    obtain ⟨m, y⟩ := q
    simp only [bankPut]
    split
    · simp [bankGet]
    · split
      · simp [bankGet]
      · rename_i h
        simp [bankGet, Ne.symm h, ih]

theorem bankGet_bankPut_other (l : Bank α) (n k : Nat) (x : α) (h : k ≠ n) :
    bankGet (bankPut l n x) k = bankGet l k := by
  induction l with
  | nil => simp [bankPut, bankGet, h.symm]
  | cons q rest ih =>
    obtain ⟨m, y⟩ := q
    simp only [bankPut]
    split
    · simp [bankGet, h.symm]
    · split
      · rename_i hm
        subst hm
        simp [bankGet, h.symm]
      · simp [bankGet, ih]

/-- Every entry after a put is the one put or one that stood there. -/
theorem mem_bankPut {l : Bank α} {n : Nat} {x : α} {q : Nat × α} (h : q ∈ bankPut l n x) :
    q = (n, x) ∨ q ∈ l := by
  induction l with
  | nil => simpa [bankPut] using h
  | cons r rest ih =>
    obtain ⟨m, y⟩ := r
    simp only [bankPut] at h
    split at h
    · simpa using h
    · split at h
      · rcases List.mem_cons.1 h with h | h
        · exact .inl h
        · exact .inr (List.mem_cons_of_mem _ h)
      · rcases List.mem_cons.1 h with h | h
        · exact .inr (h ▸ List.mem_cons_self)
        · exact (ih h).imp_right (List.mem_cons_of_mem _)

theorem bankPut_all {l : Bank α} {n : Nat} {x : α} {f : Nat × α → Bool} (hx : f (n, x) = true)
    (hl : l.all f = true) : (bankPut l n x).all f = true := by
  rw [List.all_eq_true] at *
  intro q hq
  rcases mem_bankPut hq with rfl | hq
  · exact hx
  · exact hl q hq

theorem bankPut_sorted (l : Bank α) (n : Nat) (x : α) (h : bankSorted l = true) :
    bankSorted (bankPut l n x) = true := by
  induction l with
  | nil => rfl
  | cons q rest ih =>
    obtain ⟨m, y⟩ := q
    simp only [bankSorted, Bool.and_eq_true] at h
    obtain ⟨hm, hr⟩ := h
    simp only [bankPut]
    split
    · rename_i hn
      have hall : rest.all (fun q => decide (n < q.1)) = true := by
        rw [List.all_eq_true] at *
        intro q hq
        have := of_decide_eq_true (hm q hq)
        exact decide_eq_true (by omega)
      simp only [bankSorted, List.all_cons, hn, hall, hm, hr, decide_true, Bool.and_self]
    · split
      · rename_i hn
        subst hn
        simp only [bankSorted, hm, hr, Bool.and_self]
      · have hlt : m < n := by omega
        simp only [bankSorted, ih hr, bankPut_all (f := fun q => decide (m < q.1)) (decide_eq_true hlt) hm, Bool.and_self]

/-- Putting twice under one number is putting the second. -/
theorem bankPut_bankPut_same (l : Bank α) (n : Nat) (x y : α) :
    bankPut (bankPut l n x) n y = bankPut l n y := by
  induction l with
  | nil => simp [bankPut]
  | cons q rest ih =>
    obtain ⟨m, z⟩ := q
    simp only [bankPut]
    split
    · simp [bankPut]
    · split
      · simp [bankPut]
      · rename_i h1 h2
        simp [bankPut, h1, h2, ih]

end Sys2Proof.Machine
end

