-- ==== Sys2Proof/Laws/Decode.lean ====
section
/-! SUPPORT. What reading and writing levels does. -/

namespace Sys2Proof

theorem levelBit_bitLevel (b : Bool) : levelBit (bitLevel b) = some b := by cases b <;> rfl

theorem bitLevel_of_levelBit {l : Level} {b : Bool} (h : levelBit l = some b) : bitLevel b = l := by
  cases l <;> cases h <;> rfl

theorem levelsOf_length (n v : Nat) : (levelsOf n v).length = n := by
  induction n generalizing v with
  | zero => rfl
  | succ n ih => simp [levelsOf, ih]

/-- The levels written are inside the operand's domain. -/
theorem levelsOf_driven (n v : Nat) : (levelsOf n v).all Level.isBinary = true := by
  induction n generalizing v with
  | zero => rfl
  | succ n ih =>
    have h (b : Bool) : (bitLevel b).isBinary = true := by cases b <;> rfl
    simp [levelsOf, ih, h]

/-- Levels written and read give the low bits of the number (R6). -/
theorem valueOf_levelsOf (n v : Nat) : valueOf (levelsOf n v) = some (v % 2 ^ n) := by
  induction n generalizing v with
  | zero => simp [levelsOf, valueOf, Nat.mod_one]
  | succ n ih =>
    have hbit : (v % 2 == 1).toNat = v % 2 := by
      rcases Nat.mod_two_eq_zero_or_one v with h | h <;> simp [h]
    simp only [levelsOf, valueOf, levelBit_bitLevel, ih, hbit, Option.some.injEq]
    rw [Nat.pow_succ', Nat.mod_mul]

/-- A value read is written back as the same levels, and fits their number. -/
theorem levelsOf_valueOf {ls : List Level} {v : Nat} (h : valueOf ls = some v) :
    levelsOf ls.length v = ls ∧ v < 2 ^ ls.length := by
  induction ls generalizing v with
  | nil => simp [valueOf] at h; simp [levelsOf, ← h]
  | cons l ls ih =>
    simp only [valueOf] at h
    split at h
    · rename_i b u hb hu
      obtain ⟨hl, hlt⟩ := ih hu
      have hv : b.toNat + 2 * u = v := Option.some.inj h
      have hb1 : b.toNat ≤ 1 := Bool.toNat_le b
      have hmod : v % 2 = b.toNat := by omega
      have hdiv : v / 2 = u := by omega
      refine ⟨?_, by simp only [List.length_cons, Nat.pow_succ]; omega⟩
      simp only [List.length_cons, levelsOf, hdiv, hl, hmod]
      congr 1
      rw [← bitLevel_of_levelBit hb]
      cases b <;> rfl
    · cases h

/-- Exactly the driven operands have a value (R87). -/
theorem valueOf_isSome (ls : List Level) : (valueOf ls).isSome = ls.all Level.isBinary := by
  induction ls with
  | nil => rfl
  | cons l ls ih =>
    simp only [valueOf, List.all_cons, ← ih]
    cases l <;> cases valueOf ls <;> rfl

end Sys2Proof
end

