-- ==== Sys2Proof/Laws/Exec.lean ====
section
/-! SUPPORT. All that an operation, the host's holding of an operand, and a step can do. -/

namespace Sys2Proof.Machine

theorem exec_lzc8 (n : Nat) (b : Byte) (s : State) :
    exec (.lzc8 n b) s = .next (s.give (.eight n (countLeadingZeros8 b))) := rfl

theorem exec_lzc16 (n : Nat) (w : Half) (s : State) :
    exec (.lzc16 n w) s = .next (s.give (.sixteen n (countLeadingZeros16 w))) := rfl

/-- Every operation ends in giving one count (R86). -/
theorem exec_gives (i : Instr) (s : State) : ∃ g, exec i s = .next (s.give g) := by
  cases i with
  | lzc8 n b => exact ⟨_, exec_lzc8 n b s⟩
  | lzc16 n w => exact ⟨_, exec_lzc16 n w s⟩

/-- The count an 8-bit instance was just given reads back at that instance. -/
theorem givenAt_give_eight (s : State) (n : Nat) (c : Count4) :
    (s.give (.eight n c)).givenAt .eight n = some c.toNat := by
  simp [State.givenAt]

/-- The count a 16-bit instance was just given reads back at that instance. -/
theorem givenAt_give_sixteen (s : State) (n : Nat) (c : Count5) :
    (s.give (.sixteen n c)).givenAt .sixteen n = some c.toNat := by
  simp [State.givenAt]

/-- Giving twice is giving the second: an evaluation leaves nothing behind for a later one (R10). -/
theorem give_give (s : State) (g g' : Given) : (s.give g).give g' = s.give g' := rfl

theorem ports8_give (s : State) (g : Given) (n : Nat) : (s.give g).ports8 n = s.ports8 n := rfl

theorem ports16_give (s : State) (g : Given) (n : Nat) : (s.give g).ports16 n = s.ports16 n := rfl

theorem ports8_hold8_same (s : State) (n : Nat) (b : Byte) :
    (s.hold8 n b).ports8 n = some { byteI := b, countO := countLeadingZeros8 b } := by
  simp [State.ports8, bankGet_bankPut_same]

theorem ports8_hold8_other (s : State) (n m : Nat) (b : Byte) (h : m ≠ n) :
    (s.hold8 n b).ports8 m = s.ports8 m := by
  simp [State.ports8, bankGet_bankPut_other _ _ _ _ h]

theorem ports16_hold16_same (s : State) (n : Nat) (w : Half) :
    (s.hold16 n w).ports16 n = some { wordI := w, countO := countLeadingZeros16 w } := by
  simp [State.ports16, bankGet_bankPut_same]

theorem ports16_hold16_other (s : State) (n m : Nat) (w : Half) (h : m ≠ n) :
    (s.hold16 n w).ports16 m = s.ports16 m := by
  simp [State.ports16, bankGet_bankPut_other _ _ _ _ h]

/-- A step that answers a next state took a presentation that decodes, held its operand and ran it (R86, R87). -/
theorem step_next_cases {s t : State} (h : step s = .next t) :
    ∃ p rest i, s.host.pending = p :: rest ∧ decode p = .instr i ∧ exec i ((s.withPending rest).hold i) = .next t := by
  unfold step State.takePresentation at h
  cases hp : s.host.pending with
  | nil => simp [hp] at h
  | cons p rest =>
    simp only [hp] at h
    cases hd : decode p with
    | instr i => exact ⟨p, rest, i, rfl, hd, by simpa [hd] using h⟩
    | rejected why => simp [hd] at h

end Sys2Proof.Machine
end

