-- ==== Sys2Proof/Laws/PerInstr.lean ====
section
/-! SUPPORT. Statements made once per operation. -/

namespace Sys2Proof.Laws.EncodeWellFormed

/-- What the host drives for an operation passes the boundary's checks (R37, R87). -/
def Statement (i : Instr) : Prop := (encode i).wellFormed = true

theorem lzc8 (site : Nat) (b : Byte) : Statement (.lzc8 site b) := by
  simp [Statement, encode, Presentation.wellFormed, Presentation.widthOk, Presentation.driven, levelsOf_length, Block.width,
    Config.w8, levelsOf_driven]

theorem lzc16 (site : Nat) (w : Half) : Statement (.lzc16 site w) := by
  simp [Statement, encode, Presentation.wellFormed, Presentation.widthOk, Presentation.driven, levelsOf_length, Block.width,
    Config.w16, levelsOf_driven]

end Sys2Proof.Laws.EncodeWellFormed
end

