-- ==== Sys2Proof/Tests/Slice0.lean ====
section
/-! SUPPORT. The model's own tests. Expected results come from spec/95_test_vectors.md and spec/30_encoding.md; the witnesses show
that the hypotheses and the clauses of the statements are met. -/

namespace Sys2Proof.Machine.Tests

/-- A small state: 8-bit instances 1 and 4 driven with 0x10 and 0xFF, 16-bit instance 0 driven with 0x0100, whose count 7 (section
2.2) was given last. -/
def small (ps : List Presentation) : State where
  hardware := ()
  host := { wires8 := [(1, 0x10), (4, 0xFF)], wires16 := [(0, 0x0100)], pending := ps, given := some (.sixteen 0 7) }

/-- A step ends in this next state. -/
def nextIs (o : Host.Outcome State Fault Refusal) (t : State) : Bool :=
  match o with
  | .next u => u == t
  | .fault _ => false
  | .refused _ => false

/-- A step ends in this refusal. -/
def refusedAs (o : Host.Outcome State Fault Refusal) (r : Refusal) : Bool :=
  match o with
  | .next _ => false
  | .fault _ => false
  | .refused q => q == r

/-! ## The boundary: one ill-formed term for each check -/

theorem test_wellFormed_refuses_width : Presentation.widthOk ⟨.eight, 0, [.low, .high]⟩ = false := by decide

theorem test_wellFormed_refuses_undriven_bit :
    Presentation.driven ⟨.eight, 0, [.low, .low, .low, .undriven, .low, .low, .low, .low]⟩ = false := by decide

theorem test_wellFormed_refuses_operand : Evaluation.operandOk ⟨.eight, 256, 0⟩ = false := by decide

theorem test_wellFormed_refuses_count : Evaluation.countOk ⟨.sixteen, 0, 17⟩ = false := by decide

theorem test_decode_rejects_by_name :
    decode ⟨.sixteen, 0, [.low]⟩ = .rejected .operandWidth ∧
    decode ⟨.eight, 0, [.low, .low, .low, .unknown, .low, .low, .low, .low]⟩ = .rejected .operandBit ∧
    decode ⟨.eight, 0, [.low, .low, .low, .low, .low, .low, .low, .highImpedance]⟩ = .rejected .operandBit := by decide

/-! ## Decoding, written out from R31 and R32 (bit 0 first) -/

theorem test_decode_lzc8_0x10 :
    decode ⟨.eight, 2, [.low, .low, .low, .low, .high, .low, .low, .low]⟩ = .instr (.lzc8 2 0x10) := by decide

theorem test_decode_lzc16_0x8001 :
    decode ⟨.sixteen, 0, [.high, .low, .low, .low, .low, .low, .low, .low, .low, .low, .low, .low, .low, .low, .low, .high]⟩ =
      .instr (.lzc16 0 0x8001) := by decide

theorem test_table_words :
    decodeTableWord 8 0x2A = some (.lzc8 0 0x2A) ∧ decodeTableWord 16 0xABCD = some (.lzc16 0 0xABCD) ∧
    decodeTableWord 32 0 = none := by decide

/-! ## The operations: the traces of spec/95_test_vectors.md section 2 -/

theorem test_lzc8_trace_0x2A :
    nets8 0x2A = { s1 := true, x1 := 0x02, c1 := 0, s2 := false, x2 := 0x02, c2 := 2, s3 := true, c3 := 0, z := false, c4 := 0 } := by
  decide

theorem test_lzc8_boundaries :
    [0x00, 0x01, 0x03, 0x04, 0x07, 0x08, 0x0F, 0x10, 0x1F, 0x20, 0x3F, 0x40, 0x7F, 0x80].map
      (fun v => (countLeadingZeros8 (BitVec.ofNat 8 v)).toNat) = [8, 7, 6, 5, 5, 4, 4, 3, 3, 2, 2, 1, 1, 0] := by decide

theorem test_lzc16_trace_0x1234 : nets16 0x1234 = { s0 := true, y := 0x0012, c0 := 0, n8 := 3 } := by decide

theorem test_lzc16_boundaries :
    [0x0000, 0x0001, 0x0002, 0x000F, 0x0010, 0x00FF, 0x0100, 0x01FF, 0x0FFF, 0x1000, 0x7FFF, 0x8000, 0xFFFF].map
      (fun v => (countLeadingZeros16 (BitVec.ofNat 16 v)).toNat) = [16, 15, 14, 12, 11, 8, 7, 7, 4, 3, 1, 0, 0] := by decide

theorem test_reference_boundaries :
    [clz8 0x00, clz8 0x01, clz8 0x10, clz8 0x80, clz16 0x0000, clz16 0x0001, clz16 0x00FF, clz16 0x8000] =
      [8, 7, 3, 0, 16, 15, 8, 0] := by decide

/-! ## One step on a small state -/

theorem test_step_lzc8_replaces_only_its_operand :
    nextIs (step (small [encode (.lzc8 4 0x01)]))
      { hardware := ()
        host := { wires8 := [(1, 0x10), (4, 0x01)], wires16 := [(0, 0x0100)], pending := [], given := some (.eight 4 7) } } =
      true := by decide

theorem test_step_lzc16_lists_a_new_site_in_order :
    nextIs (step (small [encode (.lzc16 2 0x00FF), encode (.lzc8 0 0)]))
      { hardware := ()
        host := { wires8 := [(1, 0x10), (4, 0xFF)], wires16 := [(0, 0x0100), (2, 0x00FF)],
                  pending := [encode (.lzc8 0 0)], given := some (.sixteen 2 8) } } = true := by decide

theorem test_step_from_reset_runs_the_word :
    nextIs (step (State.reset.withFetchWord 8 0x80))
      { hardware := (), host := { wires8 := [(0, 0x80)], wires16 := [], pending := [], given := some (.eight 0 0) } } = true := by
  decide

/-- The ports of driven and undriven instances, from the tables of section 2. -/
theorem test_ports :
    (small []).ports8 1 = some { byteI := 0x10, countO := 3 } ∧ (small []).ports16 0 = some { wordI := 0x0100, countO := 7 } ∧
    (small []).ports8 0 = none ∧ (small []).countAt .eight 4 = some 0 ∧ (small []).givenAt .sixteen 0 = some 7 := by decide

theorem test_step_with_nothing_presented : refusedAs (step State.reset) .nothingPresented = true := by decide

/-! ## The written form (R38) -/

theorem test_written_form :
    writeEvaluation ⟨.eight, 0x10, 3⟩ = ['L', 'Z', 'C', '8', ' ', '0', 'x', '1', '0', ' ', '-', '>', ' ', '3'] ∧
    readEvaluation ['L', 'Z', 'C', '1', '6', ' ', '0', 'x', '0', '0', 'F', 'F', ' ', '-', '>', ' ', '8'] =
      some ⟨.sixteen, 0x00FF, 8⟩ ∧
    readEvaluation ['L', 'Z', 'C', '8', ' ', '0', 'x', '0', '0', ' ', '-', '>', ' ', '9'] = none := by decide

/-! ## Witnesses: the hypotheses of the statements are met -/

/-- Lzc8NibbleSelection and Lzc8ArithmeticNeverWraps: both sides of stage 1, at the nibble boundary. -/
theorem witness_stage1 : (nets8 0x10).s1 = true ∧ (nets8 0x0F).s1 = false ∧ (nets8 0x10).x1 ≠ 0x10 := by decide

/-- Lzc8PairSelection: both sides of stage 2, at the pair boundary. -/
theorem witness_stage2 : (nets8 0x04).s2 = true ∧ (nets8 0x03).s2 = false ∧ (nets8 0x04).x2 ≠ (nets8 0x04).x1 := by decide

/-- Lzc8TopBitTest and Lzc8ZeroOperandTerm: both sides of stage 3 and of the zero-operand term. -/
theorem witness_stage3 :
    (nets8 0x02).s3 = true ∧ (nets8 0x01).s3 = false ∧ (nets8 0x00).z = true ∧ (nets8 0x01).z = false := by decide

/-- Lzc8SumForms, ThreeStepsMissOnlyTheZeroOperand, Lzc8CompletesWithPseudocodeCount: a zero and a nonzero operand, and one with
bit 7 set. -/
theorem witness_operands8 : (0x00 : Byte) = 0 ∧ (0x01 : Byte) ≠ 0 ∧ (0x80 : Byte).getLsbD 7 = true := by decide

/-- Lzc8SourceProperties: `a` below `b`, and `b` is the nonzero `a` with one higher bit set. -/
theorem witness_monotone8 :
    (0x03 : Byte).toNat ≤ (0x0B : Byte).toNat ∧ (0x0B : Byte) = (0x03 : Byte) ||| ((1 : Byte) <<< 3) ∧ (0x03 : Byte) ≠ 0 ∧
    ∀ k, 3 ≤ k → (0x03 : Byte).getLsbD k = false := by
  refine ⟨by decide, by decide, by decide, fun k hk => ?_⟩
  exact Nat.testBit_lt_two_pow (Nat.lt_of_lt_of_le (by decide) (Nat.pow_le_pow_right (by decide) hk))

/-- Lzc8SourceProperties: 4 meets the range and the position property of the operand 0x0B. -/
theorem witness_position8 :
    4 ≤ 7 ∧ (0x0B : Byte).getLsbD (7 - 4) = true ∧ ∀ i, 7 - 4 < i → (0x0B : Byte).getLsbD i = false := by
  refine ⟨by decide, by decide, fun i hi => ?_⟩
  exact Nat.testBit_lt_two_pow (Nat.lt_of_lt_of_le (by decide : 0x0B < 2 ^ 4) (Nat.pow_le_pow_right (by decide) hi))

/-- Lzc8ResultPatterns and Lzc16ResultPatterns: the largest pattern that occurs. -/
theorem witness_patterns : (8 : Count4) ≤ 8 ∧ (16 : Count5) ≤ 16 := by decide

/-- Lzc16ByteSelection, Lzc16SumForms, Lzc16CompletesWithPseudocodeCount: both sides of stage 0 at the byte boundary, the two
cases of the zero side, and another operand with the same upper byte. -/
theorem witness_stage0 :
    (nets16 0x0100).s0 = true ∧ (nets16 0x00FF).s0 = false ∧ (nets16 0x00FF).n8 ≠ 8 ∧ (nets16 0x0000).s0 = false ∧
    (nets16 0x0000).n8 = 8 ∧ (0x01FF : Half) >>> 8 = (0x0100 : Half) >>> 8 ∧ (0x0100 : Half) &&& 0xFF00 ≠ 0 ∧
    (nets16 0x0100).y ≠ 0x0100 := by decide

/-- Lzc16CompositionLaw and Lzc16CarriedOverProperties: both cases at the byte boundary, the range clause at its lowest and highest
`k`, the zero operand, a nonzero operand, and an ordered pair. -/
theorem witness_composition :
    highByte 0x0100 ≠ 0 ∧ highByte 0x00FF = 0 ∧ 2 ^ 0 ≤ (0x0001 : Half).toNat ∧ (0x0001 : Half).toNat < 2 ^ (0 + 1) ∧
    2 ^ 15 ≤ (0xFFFF : Half).toNat ∧ (0xFFFF : Half).toNat < 2 ^ (15 + 1) ∧ (0x0000 : Half).toNat = 0 ∧ (0x8000 : Half) ≠ 0 ∧
    (0x00FF : Half).toNat ≤ (0x0100 : Half).toNat := by decide

/-- DecodeInvertsEncode, StepRunsDecodedOperation, StepGivesReferenceCount, NoOperandFaults, EveryOperandIsLegal,
StepStopsExactlyAtTheBoundary, NoOtherWidthIsRead: a presentation that decodes, first in the list of a state. -/
theorem witness_presentation :
    (small [⟨.eight, 0, [.low, .low, .low, .low, .high, .low, .low, .low]⟩]).host.pending =
      ⟨.eight, 0, [.low, .low, .low, .low, .high, .low, .low, .low]⟩ :: [] ∧
    Presentation.wellFormed ⟨.eight, 0, [.low, .low, .low, .low, .high, .low, .low, .low]⟩ = true ∧
    valueOf [.low, .low, .low, .low, .high, .low, .low, .low] = some 0x10 ∧
    [Level.low, .low, .low, .low, .high, .low, .low, .low].length = Block.eight.width ∧
    (∀ l ∈ [Level.low, .low, .low, .low, .high, .low, .low, .low], l = .low ∨ l = .high) ∧
    decode ⟨.eight, 0, [.low, .low, .low, .low, .high, .low, .low, .low]⟩ = .instr (.lzc8 0 0x10) := by decide

/-- StepGivesReferenceCount and EveryOperandIsLegal, the 16-bit module: a driven operand, 0x00FF, of the module's width, first in
the list of a state; its count (section 2.2) is given and on the port. -/
theorem witness_presentation16 :
    (small [encode (.lzc16 3 0x00FF)]).host.pending = encode (.lzc16 3 0x00FF) :: [] ∧
    (encode (.lzc16 3 0x00FF)).levels.length = (encode (.lzc16 3 0x00FF)).block.width ∧
    (encode (.lzc16 3 0x00FF)).block = .sixteen ∧
    valueOf (encode (.lzc16 3 0x00FF)).levels = some 0x00FF ∧ clzWindow 16 0x00FF = 8 ∧
    (∀ l ∈ (encode (.lzc16 3 0x00FF)).levels, l = .low ∨ l = .high) := by decide

/-- OperandBitsAreTheLevels: the lowest and the highest bit number of each width. -/
theorem witness_bit_numbers : 0 < 8 ∧ 7 < 8 ∧ 0 < 16 ∧ 15 < 16 := by decide

/-- NoOtherWidthIsRead: a presentation and a table word of another width. -/
theorem witness_other_width :
    [Level.low].length ≠ 8 ∧ [Level.low].length ≠ 16 ∧ (32 : Nat) ≠ 8 ∧ (32 : Nat) ≠ 16 := by decide

/-- UndrivenOperandIsRefused and StepStopsExactlyAtTheBoundary: an operand of the right width with an undriven bit 7. -/
theorem witness_undriven :
    [Level.low, .low, .low, .low, .low, .low, .low, .undriven].length = Block.eight.width ∧
    (∃ l ∈ [Level.low, .low, .low, .low, .low, .low, .low, .undriven], l = .undriven ∨ l = .unknown ∨ l = .highImpedance) ∧
    refusedAs (step (small [⟨.eight, 0, [.low, .low, .low, .low, .low, .low, .low, .undriven]⟩])) .operandBit = true ∧
    refusedAs (step (small [⟨.eight, 0, [.low]⟩])) .operandWidth = true := by decide

/-- StepKeepsOutputsFollowingOperands: a state with driven instances that meets the invariant and steps. -/
theorem witness_invariant : (small [encode (.lzc8 0 0x55)]).Inv := by decide

/-- SeparateEvaluationsCommute: a state in canonical form, and operations on different wires, by
the module and by the number. -/
theorem witness_apart :
    (small []).sorted = true ∧ apart (.lzc8 1 0x01) (.lzc16 1 0x0001) ∧ apart (.lzc8 1 0x01) (.lzc8 4 0x01) := by decide

/-- StepChangesOnlyOneInstance: a step that ends in a next state, and the frame's clauses. -/
theorem witness_step_next :
    ∃ t, step (small [encode (.lzc16 2 0x00FF)]) = .next t ∧ t.ports8 4 = some { byteI := 0xFF, countO := 0 } ∧
      t.ports16 0 = some { wordI := 0x0100, countO := 7 } ∧ t.ports16 2 = some { wordI := 0x00FF, countO := 8 } :=
  ⟨_, rfl, by decide, by decide, by decide⟩

/-- SequencesAreIndependentEvaluations: Program 1 of spec/95_test_vectors.md stands in the list of a state. -/
theorem witness_sequence :
    (small ([.lzc8 0 0x00, .lzc8 0 0xFF, .lzc8 0 0x00].map encode ++ [])).host.pending =
      [.lzc8 0 0x00, .lzc8 0 0xFF, .lzc8 0 0x00].map encode ++ [] ∧
    [Instr.lzc8 0 0x00, .lzc8 0 0xFF, .lzc8 0 0x00].getLast? = some (.lzc8 0 0x00) := ⟨rfl, rfl⟩

/-- WrittenFormIsReadBack: an evaluation at the edge of both ranges, and characters that are read. -/
theorem witness_written :
    Evaluation.wellFormed ⟨.sixteen, 0xFFFF, 16⟩ = true ∧ Evaluation.wellFormed ⟨.eight, 0xFF, 8⟩ = true ∧
    readEvaluation (writeEvaluation ⟨.sixteen, 0xFFFF, 16⟩) = some ⟨.sixteen, 0xFFFF, 16⟩ := by decide

end Sys2Proof.Machine.Tests
end

section
/-! PROOFS. The halves of the 16-bit operand (spec/20_memory.md R21): their numbers, and the operand as their concatenation. -/

namespace Sys2Proof.Machine

@[simp] theorem highByte_toNat (w : Half) : (highByte w).toNat = w.toNat / 256 := by
  have hw : w.toNat / 256 < 256 := Nat.div_lt_of_lt_mul w.isLt
  rw [highByte, BitVec.extractLsb'_toNat, Nat.shiftRight_eq_div_pow]
  exact Nat.mod_eq_of_lt hw

@[simp] theorem lowByte_toNat (w : Half) : (lowByte w).toNat = w.toNat % 256 := by
  rw [lowByte, BitVec.extractLsb'_toNat, Nat.shiftRight_zero]

@[simp] theorem highByte_append_lowByte (w : Half) : highByte w ++ lowByte w = w := by
  rw [highByte, lowByte, BitVec.extractLsb'_append_extractLsb'_eq_extractLsb' (by decide)]
  exact BitVec.extractLsb'_eq_self

/-- Settles O13: the halves' numbers and concatenation hold for every operand, and the rule's two scenarios are evaluated. -/
theorem halvesOfTheOperand : Obligations.HalvesOfTheOperand := by
  unfold Obligations.HalvesOfTheOperand
  have scenario_0x00FF : highByte 0x00FF#16 = 0x00#8 ∧ lowByte 0x00FF#16 = 0xFF#8 ∧
      countLeadingZeros16 0x00FF#16 = 8#5 := by decide
  have scenario_0x8000 : (0x8000#16).getLsbD 15 = true ∧ countLeadingZeros16 0x8000#16 = 0#5 := by decide
  obtain ⟨hhigh, hlow, hcount⟩ := scenario_0x00FF
  exact ⟨fun w => ⟨rfl, rfl, highByte_append_lowByte w, highByte_toNat w, lowByte_toNat w⟩,
    hhigh, hlow, hcount, scenario_0x8000⟩

end Sys2Proof.Machine
end

section
/-! PROOFS. Every two-valued operand of a port's width is read as an operation of that port's module and has a count
(spec/30_encoding.md R37). -/

namespace Sys2Proof

theorem isBinary_iff (l : Level) : l.isBinary = true ↔ l = .low ∨ l = .high := by
  cases l <;> simp [Level.isBinary]

@[simp] theorem operation_block (k : Block) (site v : Nat) : (operation k site v).block = k := by
  cases k <;> rfl

@[simp] theorem operation_site (k : Block) (site v : Nat) : (operation k site v).site = site := by
  cases k <;> rfl

@[simp] theorem instr_wellFormed (i : Instr) : i.wellFormed = true := by
  cases i <;> rfl

/-- A presentation that passes the boundary's checks is read as its module's operation on the value of its levels. -/
theorem decode_of_wellFormed {p : Presentation} (hp : p.wellFormed = true) :
    ∃ v, valueOf p.levels = some v ∧ decode p = .instr (operation p.block p.site v) := by
  obtain ⟨hwidth, hdriven⟩ : p.widthOk = true ∧ p.driven = true := by
    simpa [Presentation.wellFormed] using hp
  obtain ⟨v, hv⟩ := Option.isSome_iff_exists.1 ((valueOf_isSome p.levels).trans hdriven)
  exact ⟨v, hv, by simp [decode, hwidth, hv]⟩

theorem wellFormed_of_binary {p : Presentation} (hlen : p.levels.length = p.block.width)
    (hbits : ∀ l ∈ p.levels, l = .low ∨ l = .high) : p.wellFormed = true := by
  have hdriven : p.driven = true := List.all_eq_true.2 fun l hl => (isBinary_iff l).2 (hbits l hl)
  simp [Presentation.wellFormed, Presentation.widthOk, hlen, hdriven]

end Sys2Proof

namespace Sys2Proof.Machine

/-- `LZC8` completes in every state, and the count given at its site is that of its operand. -/
theorem exec_lzc8_givenAt (n : Nat) (b : Byte) (s : State) :
    ∃ t, exec (.lzc8 n b) s = .next t ∧ t.givenAt .eight n = some (countLeadingZeros8 b).toNat :=
  ⟨_, exec_lzc8 n b s, givenAt_give_eight s n _⟩

/-- `LZC16` completes in every state, and the count given at its site is that of its operand. -/
theorem exec_lzc16_givenAt (n : Nat) (w : Half) (s : State) :
    ∃ t, exec (.lzc16 n w) s = .next t ∧ t.givenAt .sixteen n = some (countLeadingZeros16 w).toNat :=
  ⟨_, exec_lzc16 n w s, givenAt_give_sixteen s n _⟩

theorem exec_gives_count (i : Instr) (s : State) :
    ∃ t c, exec i s = .next t ∧ t.givenAt i.block i.site = some c := by
  cases i with
  | lzc8 n b =>
    obtain ⟨t, hexec, hgiven⟩ := exec_lzc8_givenAt n b s
    exact ⟨t, _, hexec, hgiven⟩
  | lzc16 n w =>
    obtain ⟨t, hexec, hgiven⟩ := exec_lzc16_givenAt n w s
    exact ⟨t, _, hexec, hgiven⟩

theorem countLeadingZeros8_zero : (countLeadingZeros8 0#8).toNat = 8 := by decide

theorem countLeadingZeros16_zero : (countLeadingZeros16 0#16).toNat = 16 := by decide

/-- Settles O24: a driven operand of the port's width passes the boundary's checks and so decodes; every operation gives its
operand's count, and the zero operand's counts are evaluated. -/
theorem everyOperandIsLegal : Obligations.EveryOperandIsLegal := by
  unfold Obligations.EveryOperandIsLegal
  refine ⟨fun p hlen hbits => ?_, instr_wellFormed, exec_gives_count, fun n s => ?_, fun n s => ?_⟩
  · obtain ⟨v, -, hdecode⟩ := decode_of_wellFormed (wellFormed_of_binary hlen hbits)
    exact ⟨_, hdecode, operation_block _ _ v, operation_site _ _ v⟩
  · simpa only [countLeadingZeros8_zero] using exec_lzc8_givenAt n 0#8 s
  · simpa only [countLeadingZeros16_zero] using exec_lzc16_givenAt n 0#16 s

end Sys2Proof.Machine
end

section
/-! PROOFS. The one-bit tests and the two-way selection (spec/00_scope.md R7), and stage 3 of `LZC8` (spec/40_lzc8.md R43). -/

namespace Sys2Proof.Machine

@[simp] theorem select_true {n : Nat} (x y : BitVec n) : select true x y = x := rfl

@[simp] theorem select_false {n : Nat} (x y : BitVec n) : select false x y = y := rfl

theorem anySet_iff {n : Nat} (v m : BitVec n) : anySet v m = true ↔ v &&& m ≠ 0#n := bne_iff_ne

/-- Under a mask of one bit, the test is that bit. -/
theorem anySet_twoPow {n k : Nat} (hk : k < n) (v : BitVec n) : anySet v (BitVec.twoPow n k) = v.getLsbD k := by
  have hmask : BitVec.twoPow n k ≠ 0#n := fun hzero => by
    simpa [hk] using congrArg (BitVec.getLsbD · k) hzero
  cases hbit : v.getLsbD k with
  | false => simp [anySet, BitVec.and_twoPow, hbit]
  | true => simpa [anySet, BitVec.and_twoPow, hbit] using hmask

theorem maskTop_eq_twoPow : maskTop = BitVec.twoPow 8 1 := by decide

theorem netS3_iff (x2 : Byte) : netS3 x2 = true ↔ x2 &&& 0x02#8 ≠ 0#8 := anySet_iff x2 maskTop

theorem netS3_eq_getLsbD (x2 : Byte) : netS3 x2 = x2.getLsbD 1 := by
  rw [netS3, maskTop_eq_twoPow, anySet_twoPow (by decide)]

theorem netC3_of_set {x2 : Byte} (hset : netS3 x2 = true) : netC3 x2 = 0#4 := by
  rw [netC3, hset, select_true]; rfl

theorem netC3_of_clear {x2 : Byte} (hclear : netS3 x2 = false) : netC3 x2 = 1#4 := by
  rw [netC3, hclear, select_false]; rfl

/-- Settles O5: the net's test and contribution hold for every window, so for the one stage 2 leaves. -/
theorem lzc8TopBitTest : Obligations.Lzc8TopBitTest := by
  unfold Obligations.Lzc8TopBitTest
  intro b
  exact ⟨netS3_iff _, netS3_eq_getLsbD _, netC3_of_set, netC3_of_clear⟩

end Sys2Proof.Machine
end

section
/-! PROOFS. The host's presentation of an operation is read back as that operation, and the step that takes it runs it, in any
state (spec/30_encoding.md R31, R32). The count it gives does not depend on the state, so the first evaluation is as every later
one (spec/70_reset_and_hazards.md R82). -/

namespace Sys2Proof

/-- As many levels as the port has bits are read as the module's operation on the number they were written from. -/
theorem decode_levelsOf (k : Block) (site v : Nat) :
    decode { block := k, site := site, levels := levelsOf k.width v } = .instr (operation k site (v % 2 ^ k.width)) := by
  simp [decode, Presentation.widthOk, levelsOf_length, valueOf_levelsOf]

theorem operation_eight_toNat (n : Nat) (b : Byte) : operation .eight n (b.toNat % 2 ^ 8) = .lzc8 n b := by
  rw [operation, Nat.mod_eq_of_lt b.isLt, BitVec.ofNat_toNat, BitVec.setWidth_eq]

theorem operation_sixteen_toNat (n : Nat) (w : Half) : operation .sixteen n (w.toNat % 2 ^ 16) = .lzc16 n w := by
  rw [operation, Nat.mod_eq_of_lt w.isLt, BitVec.ofNat_toNat, BitVec.setWidth_eq]

theorem decode_encode (i : Instr) : decode (encode i) = .instr i := by
  cases i with
  | lzc8 n b => exact (decode_levelsOf .eight n b.toNat).trans (congrArg Reading.instr (operation_eight_toNat n b))
  | lzc16 n w => exact (decode_levelsOf .sixteen n w.toNat).trans (congrArg Reading.instr (operation_sixteen_toNat n w))

end Sys2Proof

namespace Sys2Proof.Machine

@[simp] theorem takePresentation_presentFirst (s : State) (p : Presentation) :
    (s.presentFirst p).takePresentation = some (p, s) := rfl

theorem step_presentFirst_of_decode {p : Presentation} {i : Instr} (hdecode : decode p = .instr i) (s : State) :
    step (s.presentFirst p) = exec i (s.hold i) := by
  simp only [step, takePresentation_presentFirst, hdecode]

theorem step_presentFirst_encode (i : Instr) (s : State) : step (s.presentFirst (encode i)) = exec i (s.hold i) :=
  step_presentFirst_of_decode (decode_encode i) s

/-- One count serves every state: the state an operation runs in is not read (R10, R86). -/
theorem exec_gives_same_count (i : Instr) :
    ∃ c, ∀ s, ∃ t, exec i s = .next t ∧ t.givenAt i.block i.site = some c := by
  cases i with
  | lzc8 n b => exact ⟨_, exec_lzc8_givenAt n b⟩
  | lzc16 n w => exact ⟨_, exec_lzc16_givenAt n w⟩

/-- Settles O37: both steps run the operation presented, and its one count serves the state after reset and any other. -/
theorem firstEvaluationObeysTheSameRule : Obligations.FirstEvaluationObeysTheSameRule := by
  unfold Obligations.FirstEvaluationObeysTheSameRule
  intro i s
  obtain ⟨c, hcount⟩ := exec_gives_same_count i
  obtain ⟨t, hexec, hgiven⟩ := hcount (State.reset.hold i)
  obtain ⟨u, hexec', hgiven'⟩ := hcount (s.hold i)
  exact ⟨t, u, c, (step_presentFirst_encode i _).trans hexec, (step_presentFirst_encode i s).trans hexec', hgiven, hgiven'⟩

end Sys2Proof.Machine
end

section
/-! PROOFS. A presentation that decodes is the encoding of what it decodes to, and its levels are the operand's bits
(spec/30_encoding.md sections 1, 2 and 4; spec/41_lzc16.md R57). -/

namespace Sys2Proof

/-- All that decoding to an operation says of a presentation: its width, its value, and the operation. -/
theorem decode_instr_cases {p : Presentation} {i : Instr} (h : decode p = .instr i) :
    p.levels.length = p.block.width ∧ ∃ v, valueOf p.levels = some v ∧ i = operation p.block p.site v := by
  unfold decode at h
  split at h
  · rename_i hwidth
    cases hv : valueOf p.levels with
    | none => simp [hv] at h
    | some v => exact ⟨by simpa [Presentation.widthOk] using hwidth, v, rfl, by simpa [hv] using h.symm⟩
  · cases h

/-- The host drives an operation's value, where it fits the port, as its levels (R31, R32). -/
theorem encode_operation (k : Block) (site : Nat) {v : Nat} (hv : v < 2 ^ k.width) :
    encode (operation k site v) = { block := k, site := site, levels := levelsOf k.width v } := by
  cases k with
  | eight => rw [operation, encode, BitVec.toNat_ofNat, Nat.mod_eq_of_lt (show v < 2 ^ 8 from hv)]; rfl
  | sixteen => rw [operation, encode, BitVec.toNat_ofNat, Nat.mod_eq_of_lt (show v < 2 ^ 16 from hv)]; rfl

theorem encode_of_decode {p : Presentation} {i : Instr} (h : decode p = .instr i) : encode i = p := by
  obtain ⟨hlen, v, hv, rfl⟩ := decode_instr_cases h
  obtain ⟨hlevels, hlt⟩ := levelsOf_valueOf hv
  rw [hlen] at hlevels hlt
  rw [encode_operation _ _ hlt, hlevels]

/-- Settles O20: levels written are read back, and levels read are written back as they stood. -/
theorem decodeInvertsEncode : Obligations.DecodeInvertsEncode := by
  unfold Obligations.DecodeInvertsEncode
  exact ⟨decode_encode, fun _ _ => encode_of_decode⟩

theorem bitLevel_eq_ite (b : Bool) : bitLevel b = if b then .high else .low := by
  cases b <;> rfl

/-- Level `k` carries bit `k` of the number written (R6). -/
theorem levelsOf_getElem? {n k : Nat} (hk : k < n) (v : Nat) : (levelsOf n v)[k]? = some (bitLevel (v.testBit k)) := by
  induction n generalizing k v with
  | zero => cases hk
  | succ n ih =>
    cases k with
    | zero => rw [levelsOf, List.getElem?_cons_zero, Nat.testBit_zero]; rfl
    | succ k => rw [levelsOf, List.getElem?_cons_succ, ih (Nat.lt_of_succ_lt_succ hk), Nat.testBit_succ]

/-- Settles O21: the levels are written bit by bit from the operand's number. -/
theorem operandBitsAreTheLevels : Obligations.OperandBitsAreTheLevels := by
  unfold Obligations.OperandBitsAreTheLevels
  refine ⟨fun n b k hk => ?_, fun n w k hk => ?_⟩
  · rw [encode, levelsOf_getElem? hk, bitLevel_eq_ite, BitVec.testBit_toNat]
  · rw [encode, levelsOf_getElem? hk, bitLevel_eq_ite, BitVec.testBit_toNat]

/-- Settles O22: each list of levels is evaluated. -/
theorem writtenOutOperandsDecode : Obligations.WrittenOutOperandsDecode := by
  unfold Obligations.WrittenOutOperandsDecode
  decide

theorem block_width_eq (k : Block) : k.width = 8 ∨ k.width = 16 := by
  cases k with
  | eight => exact .inl rfl
  | sixteen => exact .inr rfl

theorem decode_of_not_widthOk {p : Presentation} (h : p.widthOk = false) : decode p = .rejected .operandWidth := by
  simp [decode, h]

theorem decode_of_other_width {p : Presentation} (h8 : p.levels.length ≠ 8) (h16 : p.levels.length ≠ 16) :
    decode p = .rejected .operandWidth := by
  refine decode_of_not_widthOk (beq_false_of_ne fun hlen => ?_)
  rcases block_width_eq p.block with hwidth | hwidth
  · exact h8 (hlen.trans hwidth)
  · exact h16 (hlen.trans hwidth)

/-- Settles O25: a number of levels other than 8 and 16 is no module's width, so the boundary's first check rejects it. -/
theorem noOtherWidthIsRead : Obligations.NoOtherWidthIsRead := by
  unfold Obligations.NoOtherWidthIsRead
  refine ⟨fun p => decode_of_other_width, fun nbits w h8 h16 => ?_, fun i => block_width_eq i.block, fun p i h => ?_⟩
  · have hlen : (tablePresentation nbits w).levels.length = nbits := levelsOf_length nbits w
    rw [decodeTableWord, decode_of_other_width (by rwa [hlen]) (by rwa [hlen])]
  · obtain ⟨hlen, v, -, rfl⟩ := decode_instr_cases h
    rwa [operation_block]

theorem tablePresentation_eight (b : Byte) : tablePresentation 8 b.toNat = encode (.lzc8 0 b) := rfl

theorem tablePresentation_sixteen (w : Half) : tablePresentation 16 w.toNat = encode (.lzc16 0 w) := rfl

theorem decodeTableWord_of_eq_encode {nbits w : Nat} {i : Instr} (h : tablePresentation nbits w = encode i) :
    decodeTableWord nbits w = some i := by
  rw [decodeTableWord, h, decode_encode]

/-- Settles O23: a table word of a row's length is what the host drives for the row's operation on site 0, so it decodes to that
operation and a step runs it. -/
theorem tableWordsRun : Obligations.TableWordsRun := by
  unfold Obligations.TableWordsRun
  exact ⟨fun b => ⟨rfl, decodeTableWord_of_eq_encode (tablePresentation_eight b)⟩,
    fun w => ⟨rfl, decodeTableWord_of_eq_encode (tablePresentation_sixteen w)⟩,
    fun b s => Machine.step_presentFirst_encode (.lzc8 0 b) s,
    fun w s => Machine.step_presentFirst_encode (.lzc16 0 w) s⟩

end Sys2Proof
end

section
/-! PROOFS. What one evaluation does to the state: the host holds the operand, the module gives the count. An operation and a step
are each one equation (spec/70_reset_and_hazards.md R86, R87), and what an evaluation changes and leaves is said once. -/

namespace Sys2Proof.Machine

/-- What an operation gives the host: its count, on its site. -/
def givenOf : Instr → Given
  | .lzc8 n b => .eight n (countLeadingZeros8 b)
  | .lzc16 n w => .sixteen n (countLeadingZeros16 w)

/-- The count of an operation's operand. -/
def countOfInstr (i : Instr) : Nat := countOf i.block (encodeTableWord i).2

/-- The state an evaluation ends in: the operand held, the count given. -/
def State.evaluate (s : State) (i : Instr) : State := (s.hold i).give (givenOf i)

theorem exec_eq_give (i : Instr) (s : State) : exec i s = .next (s.give (givenOf i)) := by
  cases i with
  | lzc8 n b => exact exec_lzc8 n b s
  | lzc16 n w => exact exec_lzc16 n w s

theorem countOfInstr_lzc8 (n : Nat) (b : Byte) : countOfInstr (.lzc8 n b) = (countLeadingZeros8 b).toNat := by
  simp [countOfInstr, countOf, Instr.block, encodeTableWord]

theorem countOfInstr_lzc16 (n : Nat) (w : Half) : countOfInstr (.lzc16 n w) = (countLeadingZeros16 w).toNat := by
  simp [countOfInstr, countOf, Instr.block, encodeTableWord]

/-- The count an operation gave reads back at its site. -/
theorem givenAt_give_givenOf (i : Instr) (s : State) :
    (s.give (givenOf i)).givenAt i.block i.site = some (countOfInstr i) := by
  cases i with
  | lzc8 n b => rw [countOfInstr_lzc8]; exact givenAt_give_eight s n _
  | lzc16 n w => rw [countOfInstr_lzc16]; exact givenAt_give_sixteen s n _

theorem countAt_give (s : State) (g : Given) (k : Block) (n : Nat) : (s.give g).countAt k n = s.countAt k n := by
  cases k <;> rfl

/-! ## Steps -/

theorem step_of_nothing {s : State} (hp : s.host.pending = []) : step s = .refused .nothingPresented := by
  simp only [step, State.takePresentation, hp]

theorem step_of_decode {s : State} {p : Presentation} {rest : List Presentation} {i : Instr}
    (hp : s.host.pending = p :: rest) (hd : decode p = .instr i) : step s = exec i ((s.withPending rest).hold i) := by
  simp only [step, State.takePresentation, hp, hd]

theorem step_of_rejected {s : State} {p : Presentation} {rest : List Presentation} {why : Rejection}
    (hp : s.host.pending = p :: rest) (hd : decode p = .rejected why) : step s = .refused (refusalOf why) := by
  simp only [step, State.takePresentation, hp, hd]

theorem step_eq_evaluate {s : State} {p : Presentation} {rest : List Presentation} {i : Instr}
    (hp : s.host.pending = p :: rest) (hd : decode p = .instr i) : step s = .next ((s.withPending rest).evaluate i) :=
  (step_of_decode hp hd).trans (exec_eq_give i _)

theorem step_presentFirst_eq_evaluate (i : Instr) (s : State) :
    step (s.presentFirst (encode i)) = .next (s.evaluate i) :=
  (step_presentFirst_encode i s).trans (exec_eq_give i _)

/-- A step that ends in a next state is one evaluation of the oldest presentation. -/
theorem step_next_evaluate {s t : State} (h : step s = .next t) :
    ∃ p rest i, s.host.pending = p :: rest ∧ decode p = .instr i ∧ t = (s.withPending rest).evaluate i := by
  obtain ⟨p, rest, i, hp, hd, -⟩ := step_next_cases h
  refine ⟨p, rest, i, hp, hd, ?_⟩
  rw [step_eq_evaluate hp hd] at h
  exact (Host.Outcome.next.inj h).symm

/-! ## What an evaluation changes and leaves -/

@[simp] theorem evaluate_given (s : State) (i : Instr) : (s.evaluate i).host.given = some (givenOf i) := rfl

@[simp] theorem evaluate_pending (s : State) (i : Instr) : (s.evaluate i).host.pending = s.host.pending := by
  cases i <;> rfl

theorem evaluate_givenAt (s : State) (i : Instr) : (s.evaluate i).givenAt i.block i.site = some (countOfInstr i) :=
  givenAt_give_givenOf i (s.hold i)

/-- The ports of an 8-bit site that is driven with `b`. -/
def portsOf8 (b : Byte) : Ports8 := { byteI := b, countO := countLeadingZeros8 b }

/-- The ports of a 16-bit site that is driven with `w`. -/
def portsOf16 (w : Half) : Ports16 := { wordI := w, countO := countLeadingZeros16 w }

theorem evaluate_lzc8_ports8_same (s : State) (n : Nat) (b : Byte) :
    (s.evaluate (.lzc8 n b)).ports8 n = some (portsOf8 b) :=
  ports8_hold8_same s n b

theorem evaluate_lzc16_ports16_same (s : State) (n : Nat) (w : Half) :
    (s.evaluate (.lzc16 n w)).ports16 n = some (portsOf16 w) :=
  ports16_hold16_same s n w

theorem evaluate_ports8_other (s : State) {i : Instr} {n : Nat} (h : i.block = .sixteen ∨ i.site ≠ n) :
    (s.evaluate i).ports8 n = s.ports8 n := by
  cases i with
  | lzc8 m b => exact ports8_hold8_other s m n b (h.resolve_left (by simp [Instr.block])).symm
  | lzc16 m w => rfl

theorem evaluate_ports16_other (s : State) {i : Instr} {n : Nat} (h : i.block = .eight ∨ i.site ≠ n) :
    (s.evaluate i).ports16 n = s.ports16 n := by
  cases i with
  | lzc8 m b => rfl
  | lzc16 m w => exact ports16_hold16_other s m n w (h.resolve_left (by simp [Instr.block])).symm

/-- The count given is the one on the port of the site that gave it. -/
theorem evaluate_countAt (s : State) (i : Instr) : (s.evaluate i).countAt i.block i.site = some (countOfInstr i) := by
  cases i with
  | lzc8 n b =>
    rw [countOfInstr_lzc8]; exact congrArg (Option.map fun p => p.countO.toNat) (evaluate_lzc8_ports8_same s n b)
  | lzc16 n w =>
    rw [countOfInstr_lzc16]; exact congrArg (Option.map fun p => p.countO.toNat) (evaluate_lzc16_ports16_same s n w)

theorem evaluate_sorted {s : State} (i : Instr) (h : s.sorted = true) : (s.evaluate i).sorted = true := by
  obtain ⟨h8, h16⟩ : bankSorted s.host.wires8 = true ∧ bankSorted s.host.wires16 = true := by
    simpa only [State.sorted, Bool.and_eq_true] using h
  cases i with
  | lzc8 n b => exact Bool.and_eq_true_iff.2 ⟨bankPut_sorted _ n b h8, h16⟩
  | lzc16 n w => exact Bool.and_eq_true_iff.2 ⟨h8, bankPut_sorted _ n w h16⟩

theorem evaluate_follows (s : State) (i : Instr) : (s.evaluate i).follows = true := by
  cases i with
  | lzc8 n b =>
    exact beq_iff_eq.2 (congrArg (Option.map Ports8.countO) (evaluate_lzc8_ports8_same s n b))
  | lzc16 n w =>
    exact beq_iff_eq.2 (congrArg (Option.map Ports16.countO) (evaluate_lzc16_ports16_same s n w))

/-- Settles O39: a step is one evaluation, which puts in order and gives the count it puts on the port. -/
theorem stepKeepsOutputsFollowingOperands : Obligations.StepKeepsOutputsFollowingOperands := by
  unfold Obligations.StepKeepsOutputsFollowingOperands
  intro s t hinv hstep
  obtain ⟨p, rest, i, -, -, rfl⟩ := step_next_evaluate hstep
  obtain ⟨hsorted, -⟩ := hinv
  exact ⟨evaluate_sorted i hsorted, evaluate_follows _ i⟩

/-- Settles O40: the state after reset has no entry in any field the statement reads. -/
theorem resetHoldsNothing : Obligations.ResetHoldsNothing := by
  unfold Obligations.ResetHoldsNothing
  exact ⟨⟨rfl, rfl⟩, fun _ => rfl, fun _ => rfl, fun k _ => by cases k <;> rfl, fun k _ => by cases k <;> rfl, rfl⟩

/-- Settles O26: the step takes the presentation and runs what it decodes to. -/
theorem stepRunsDecodedOperation : Obligations.StepRunsDecodedOperation := by
  unfold Obligations.StepRunsDecodedOperation
  exact fun s p rest i => step_of_decode

/-- Settles O34: a step is one evaluation, and an evaluation leaves the ports of every other site. -/
theorem stepChangesOnlyOneInstance : Obligations.StepChangesOnlyOneInstance := by
  unfold Obligations.StepChangesOnlyOneInstance
  intro s t hstep
  obtain ⟨p, rest, i, hp, hd, rfl⟩ := step_next_evaluate hstep
  exact ⟨p, rest, i, hp, hd, evaluate_pending _ i, fun n => evaluate_ports8_other _, fun n => evaluate_ports16_other _⟩

end Sys2Proof.Machine
end

section
/-! PROOFS. Evaluations are independent: an earlier one, the state and the site do not show in a count, and repeating one or
exchanging two on different wires leaves the same ports (spec/10_state.md R10, spec/20_memory.md R24, R26). -/

namespace Sys2Proof.Machine

/-- Settles O31: an operation's whole effect is the count it gives, and a given count is replaced by the next. -/
theorem evaluationLeavesNothingBehind : Obligations.EvaluationLeavesNothingBehind := by
  unfold Obligations.EvaluationLeavesNothingBehind
  refine ⟨fun _ _ => rfl, fun n m b s s' => ?_, fun n m w s s' => ?_, fun i j s => ?_⟩
  · exact ⟨_, _, _, exec_lzc8 n b s, exec_lzc8 m b s', rfl, rfl, rfl⟩
  · exact ⟨_, _, _, exec_lzc16 n w s, exec_lzc16 m w s', rfl, rfl, rfl⟩
  · exact ⟨_, _, exec_eq_give j s, exec_eq_give i _, (give_give s (givenOf j) (givenOf i)).symm ▸ exec_eq_give i s⟩

/-- Settles O32: each of the three steps is one evaluation, which gives its operand's count and puts it on the port. -/
theorem earlierStepsChangeNoCount : Obligations.EarlierStepsChangeNoCount := by
  unfold Obligations.EarlierStepsChangeNoCount
  intro i j s
  refine ⟨_, _, _, step_presentFirst_eq_evaluate j s, step_presentFirst_eq_evaluate i _, step_presentFirst_eq_evaluate i s, ?_⟩
  simp only [evaluate_given, evaluate_countAt, evaluate_givenAt, and_self]

/-- Settles O33: an operation gives its operand's count and changes nothing else. -/
theorem countDependsOnOperandOnly : Obligations.CountDependsOnOperandOnly := by
  unfold Obligations.CountDependsOnOperandOnly
  refine ⟨fun n m b s s' => ?_, fun n m w s s' => ?_, fun i j s => ?_, fun j s => ?_⟩
  · exact ⟨_, _, _, exec_lzc8 n b s, exec_lzc8 m b s', givenAt_give_eight s n _, givenAt_give_eight s' m _⟩
  · exact ⟨_, _, _, exec_lzc16 n w s, exec_lzc16 m w s', givenAt_give_sixteen s n _, givenAt_give_sixteen s' m _⟩
  · exact ⟨_, _, _, _, exec_eq_give j s, exec_eq_give i _, exec_eq_give i s, givenAt_give_givenOf i _, givenAt_give_givenOf i s⟩
  · exact ⟨_, exec_eq_give j s, ports8_give s _, ports16_give s _, countAt_give s _⟩

theorem evaluate_evaluate_same (s : State) (i : Instr) : (s.evaluate i).evaluate i = s.evaluate i := by
  cases i with
  | lzc8 n b => simp only [State.evaluate, State.hold, State.hold8, State.give, bankPut_bankPut_same]
  | lzc16 n w => simp only [State.evaluate, State.hold, State.hold16, State.give, bankPut_bankPut_same]

/-- Settles O36: giving the same count again, and holding the same operand again, leave the same state. -/
theorem repeatedEvaluationChangesNothing : Obligations.RepeatedEvaluationChangesNothing := by
  unfold Obligations.RepeatedEvaluationChangesNothing
  refine ⟨fun i s => ?_, fun i s => ?_⟩
  · exact ⟨_, exec_eq_give i s, exec_eq_give i _⟩
  · refine ⟨_, step_presentFirst_eq_evaluate i s, ?_⟩
    rw [step_presentFirst_eq_evaluate, evaluate_evaluate_same]

theorem bankPut_cons_of_lt {α : Type} {n k : Nat} (h : n < k) (z x : α) (rest : Bank α) :
    bankPut ((k, z) :: rest) n x = (n, x) :: (k, z) :: rest := if_pos h

theorem bankPut_cons_same {α : Type} (n : Nat) (z x : α) (rest : Bank α) :
    bankPut ((n, z) :: rest) n x = (n, x) :: rest := by
  simp [bankPut]

theorem bankPut_cons_of_gt {α : Type} {n k : Nat} (h : k < n) (z x : α) (rest : Bank α) :
    bankPut ((k, z) :: rest) n x = (k, z) :: bankPut rest n x := by
  simp [bankPut, h.not_gt, h.ne']

theorem bankPut_comm_of_lt {α : Type} (l : Bank α) {n m : Nat} (h : n < m) (x y : α) :
    bankPut (bankPut l n x) m y = bankPut (bankPut l m y) n x := by
  induction l with
  | nil => exact (bankPut_cons_of_gt h x y []).trans (bankPut_cons_of_lt h y x []).symm
  | cons q rest ih =>
    obtain ⟨k, z⟩ := q
    rcases lt_trichotomy m k with hm | rfl | hm
    · have hn : n < k := h.trans hm
      simp only [bankPut_cons_of_lt, bankPut_cons_of_gt, h, hm, hn]
    · simp only [bankPut_cons_same, bankPut_cons_of_lt, bankPut_cons_of_gt, h]
    · rcases lt_trichotomy n k with hn | rfl | hn
      · simp only [bankPut_cons_of_lt, bankPut_cons_of_gt, h, hm, hn]
      · simp only [bankPut_cons_same, bankPut_cons_of_gt, h]
      · simp only [bankPut_cons_of_gt, hm, hn, ih]

/-- Puts under different numbers commute, in any bank. -/
theorem bankPut_comm {α : Type} (l : Bank α) {n m : Nat} (h : n ≠ m) (x y : α) :
    bankPut (bankPut l n x) m y = bankPut (bankPut l m y) n x := by
  rcases Nat.lt_or_gt_of_ne h with hlt | hlt
  · exact bankPut_comm_of_lt l hlt x y
  · exact (bankPut_comm_of_lt l hlt y x).symm

theorem hold_hold_comm (s : State) {i j : Instr} (h : apart i j) : (s.hold i).hold j = (s.hold j).hold i := by
  cases i with
  | lzc8 n b =>
    cases j with
    | lzc8 m c =>
      have hsite : n ≠ m := h.resolve_left fun hblock => hblock rfl
      simp only [State.hold, State.hold8, bankPut_comm _ hsite]
    | lzc16 m w => rfl
  | lzc16 n w =>
    cases j with
    | lzc8 m b => rfl
    | lzc16 m v =>
      have hsite : n ≠ m := h.resolve_left fun hblock => hblock rfl
      simp only [State.hold, State.hold16, bankPut_comm _ hsite]

/-- Of two evaluations in a row both operands are held, and the second count given. -/
theorem evaluate_evaluate (s : State) (i j : Instr) :
    (s.evaluate i).evaluate j = ((s.hold i).hold j).give (givenOf j) := by
  cases j <;> rfl

theorem evaluate_withPending (s : State) (i : Instr) (ps : List Presentation) :
    (s.evaluate i).withPending ps = (s.withPending ps).evaluate i := by
  cases i <;> rfl

/-- The state a list of evaluations ends in. -/
def State.evaluateAll (s : State) : List Instr → State
  | [] => s
  | i :: prog => (s.evaluate i).evaluateAll prog

theorem run_zero (s : State) : Host.Core.run core 0 s = .next s := rfl

theorem run_succ_of_step {s t : State} (h : step s = .next t) (k : Nat) :
    Host.Core.run core (k + 1) s = Host.Core.run core k t := by
  simp only [Host.Core.run, show core.step s = .next t from h]

/-- A run over what the host drives for a list of operations is those evaluations, one after another. -/
theorem run_eq_evaluateAll (prog : List Instr) (rest : List Presentation) (s : State)
    (hp : s.host.pending = prog.map encode ++ rest) :
    Host.Core.run core prog.length s = .next ((s.withPending rest).evaluateAll prog) := by
  induction prog generalizing s with
  | nil =>
    have hs : s.withPending rest = s := by rw [← show s.host.pending = rest from hp]; rfl
    exact (run_zero s).trans (congrArg Host.Outcome.next hs.symm)
  | cons i prog ih =>
    have hstep := step_eq_evaluate hp (decode_encode i)
    have hrun := ih _ (evaluate_pending (s.withPending (prog.map encode ++ rest)) i)
    rw [evaluate_withPending] at hrun
    exact (run_succ_of_step hstep _).trans hrun

/-- Settles O35: each run is its two evaluations, and operands held on different wires may be exchanged. The canonical form, the
statement's premise, is not needed for it: puts under different numbers commute in any bank. -/
theorem separateEvaluationsCommute : Obligations.SeparateEvaluationsCommute := by
  unfold Obligations.SeparateEvaluationsCommute
  intro i j rest s _ hapart
  have hij : ((s.withPending rest).evaluate i).evaluate j = _ := evaluate_evaluate _ i j
  have hji : ((s.withPending rest).evaluate j).evaluate i = _ := evaluate_evaluate _ j i
  rw [hold_hold_comm _ hapart] at hij
  refine ⟨_, _, (run_eq_evaluateAll [i, j] rest _ rfl).trans (congrArg _ hij),
    (run_eq_evaluateAll [j, i] rest _ rfl).trans (congrArg _ hji), rfl, rfl, rfl, rfl, fun k n => ?_⟩
  rw [countAt_give, countAt_give]

theorem evaluateAll_pending (prog : List Instr) (s : State) : (s.evaluateAll prog).host.pending = s.host.pending := by
  induction prog generalizing s with
  | nil => rfl
  | cons i prog ih => rw [State.evaluateAll, ih, evaluate_pending]

theorem lastOperand8_cons (n : Nat) (i : Instr) (prog : List Instr) :
    lastOperand8 n (i :: prog) = (lastOperand8 n prog).or (lastOperand8 n [i]) := by
  cases h : lastOperand8 n prog <;> simp [lastOperand8, h]

theorem lastOperand16_cons (n : Nat) (i : Instr) (prog : List Instr) :
    lastOperand16 n (i :: prog) = (lastOperand16 n prog).or (lastOperand16 n [i]) := by
  cases h : lastOperand16 n prog <;> simp [lastOperand16, h]

theorem evaluate_ports8 (s : State) (i : Instr) (n : Nat) :
    (s.evaluate i).ports8 n = ((lastOperand8 n [i]).map portsOf8).or (s.ports8 n) := by
  cases i with
  | lzc8 m b =>
    by_cases hm : m = n
    · subst hm; simpa [lastOperand8] using evaluate_lzc8_ports8_same s m b
    · simpa [lastOperand8, hm] using evaluate_ports8_other s (i := .lzc8 m b) (.inr hm)
  | lzc16 m w => exact evaluate_ports8_other s (.inl rfl)

theorem evaluate_ports16 (s : State) (i : Instr) (n : Nat) :
    (s.evaluate i).ports16 n = ((lastOperand16 n [i]).map portsOf16).or (s.ports16 n) := by
  cases i with
  | lzc8 m b => exact evaluate_ports16_other s (.inl rfl)
  | lzc16 m w =>
    by_cases hm : m = n
    · subst hm; simpa [lastOperand16] using evaluate_lzc16_ports16_same s m w
    · simpa [lastOperand16, hm] using evaluate_ports16_other s (i := .lzc16 m w) (.inr hm)

theorem evaluateAll_ports8 (prog : List Instr) (s : State) (n : Nat) :
    (s.evaluateAll prog).ports8 n = ((lastOperand8 n prog).map portsOf8).or (s.ports8 n) := by
  induction prog generalizing s with
  | nil => rfl
  | cons i prog ih => rw [State.evaluateAll, ih, evaluate_ports8, lastOperand8_cons n i prog, Option.map_or, Option.or_assoc]

theorem evaluateAll_ports16 (prog : List Instr) (s : State) (n : Nat) :
    (s.evaluateAll prog).ports16 n = ((lastOperand16 n prog).map portsOf16).or (s.ports16 n) := by
  induction prog generalizing s with
  | nil => rfl
  | cons i prog ih => rw [State.evaluateAll, ih, evaluate_ports16, lastOperand16_cons n i prog, Option.map_or, Option.or_assoc]

theorem evaluateAll_givenAt {prog : List Instr} {i : Instr} (h : prog.getLast? = some i) (s : State) :
    (s.evaluateAll prog).givenAt i.block i.site = some (countOfInstr i) := by
  induction prog generalizing s with
  | nil => cases h
  | cons j prog ih =>
    cases prog with
    | nil => cases h; exact evaluate_givenAt s j
    | cons k prog => exact ih (by simpa using h) (s.evaluate j)

/-- Settles O38: the run is the list's evaluations, and each clause is an induction over them. -/
theorem sequencesAreIndependentEvaluations : Obligations.SequencesAreIndependentEvaluations := by
  unfold Obligations.SequencesAreIndependentEvaluations
  intro prog rest s hp
  exact ⟨_, run_eq_evaluateAll prog rest s hp, evaluateAll_pending prog _, evaluateAll_ports8 prog _,
    evaluateAll_ports16 prog _, fun i hlast => evaluateAll_givenAt hlast _⟩

end Sys2Proof.Machine
end

section
/-! PROOFS. The bit length of an operand (`Nat.size`) gives its count: `clz_N` is `N` less the bit length, and the properties the
spec states of a count are properties of the bit length (spec/00_scope.md R8, spec/40_lzc8.md R47). -/

namespace Sys2Proof.Machine

theorem size_eq_of_range {v k : Nat} (hlow : 2 ^ k ≤ v) (hhigh : v < 2 ^ (k + 1)) : v.size = k + 1 :=
  le_antisymm (Nat.size_le.2 hhigh) (Nat.lt_size.2 hlow)

theorem size_two_pow_sub_one (k : Nat) : (2 ^ k - 1).size = k := by
  cases k with
  | zero => rfl
  | succ k => exact size_eq_of_range (by have := Nat.two_pow_pos k; omega) (by have := Nat.two_pow_pos k; omega)

/-- Dropping the lowest `k` bits takes `k` from the bit length. -/
theorem size_div_two_pow (v k : Nat) : (v / 2 ^ k).size = v.size - k := by
  refine eq_of_forall_lt_iff fun m => ?_
  rw [Nat.lt_size, Nat.le_div_iff_mul_le (Nat.two_pow_pos k), ← Nat.pow_add, ← Nat.lt_size, Nat.lt_sub_iff_add_lt]

theorem testBit_size_sub_one {v : Nat} (hv : v ≠ 0) : v.testBit (v.size - 1) = true := by
  have hpos : 0 < v.size := Nat.size_pos.2 (Nat.pos_of_ne_zero hv)
  refine Nat.testBit_of_two_pow_le_and_two_pow_add_one_gt (Nat.lt_size.1 (by omega)) ?_
  rw [Nat.sub_add_cancel hpos]
  exact Nat.lt_size_self v

theorem testBit_of_size_le {v i : Nat} (hi : v.size ≤ i) : v.testBit i = false :=
  Nat.testBit_lt_two_pow (Nat.size_le.1 hi)

/-- The highest set bit fixes the bit length. -/
theorem size_eq_of_highest {v p : Nat} (hp : v.testBit p = true) (habove : ∀ i, p < i → v.testBit i = false) :
    v.size = p + 1 :=
  size_eq_of_range (Nat.ge_two_pow_of_testBit hp) (Nat.lt_pow_two_of_testBit _ habove)

/-! ## The reference function -/

/-- In a window a number fits, the highest set bit is the last of its bit length. -/
theorem highestSetBit_eq {n v : Nat} (hv : v < 2 ^ n) :
    highestSetBit n v = if v = 0 then none else some (v.size - 1) := by
  induction n with
  | zero => simp [highestSetBit, Nat.lt_one_iff.1 hv]
  | succ n ih =>
    rw [highestSetBit]
    rcases Nat.lt_or_ge v (2 ^ n) with hlt | hge
    · simp [Nat.testBit_lt_two_pow hlt, ih hlt]
    · have hne : v ≠ 0 := (Nat.lt_of_lt_of_le (Nat.two_pow_pos n) hge).ne'
      simp [Nat.testBit_of_two_pow_le_and_two_pow_add_one_gt hge hv, hne, size_eq_of_range hge hv]

/-- `clz_N` is `N` less the bit length (R8). -/
theorem clzWindow_eq_sub_size {n v : Nat} (hv : v < 2 ^ n) : clzWindow n v = n - v.size := by
  rw [clzWindow, highestSetBit_eq hv]
  by_cases hzero : v = 0
  · simp [hzero]
  · have hpos : 0 < v.size := Nat.size_pos.2 (Nat.pos_of_ne_zero hzero)
    simp only [hzero, if_false]
    omega

/-- A window is counted by its upper part, and by its lower part where the upper is zero. -/
theorem clzWindow_split {j k v : Nat} (hv : v < 2 ^ (j + k)) :
    clzWindow (j + k) v = if v / 2 ^ k ≠ 0 then clzWindow j (v / 2 ^ k) else j + clzWindow k v := by
  have hsize : v.size ≤ j + k := Nat.size_le.2 hv
  split_ifs with hupper
  · have hj : v / 2 ^ k < 2 ^ j := Nat.div_lt_of_lt_mul (by rwa [← Nat.pow_add, Nat.add_comm])
    have hpos : 0 < (v / 2 ^ k).size := Nat.size_pos.2 (Nat.pos_of_ne_zero hupper)
    rw [size_div_two_pow] at hpos
    rw [clzWindow_eq_sub_size hv, clzWindow_eq_sub_size hj, size_div_two_pow]
    omega
  · have hk : v < 2 ^ k := (Nat.div_eq_zero_iff_lt (Nat.two_pow_pos k)).1 (not_not.1 hupper)
    have hsize' : v.size ≤ k := Nat.size_le.2 hk
    rw [clzWindow_eq_sub_size hv, clzWindow_eq_sub_size hk]
    omega

/-! ## What the bit length says of an operand -/

theorem size_toNat_le {n : Nat} (v : BitVec n) : v.toNat.size ≤ n := Nat.size_le.2 v.isLt

theorem size_toNat_eq_zero {n : Nat} (v : BitVec n) : v.toNat.size = 0 ↔ v = 0#n := by
  rw [Nat.size_eq_zero, ← BitVec.toNat_inj, BitVec.toNat_zero]

/-- The count is the distance of the highest set bit from the top (R47). -/
theorem highest_bit_of_count {n c : Nat} {v : BitVec n} (hv : v ≠ 0#n) (hc : c = n - v.toNat.size) :
    c ≤ n - 1 ∧ v.getLsbD (n - 1 - c) = true ∧ ∀ i, n - 1 - c < i → v.getLsbD i = false := by
  have hle := size_toNat_le v
  have hpos : v.toNat.size ≠ 0 := fun h => hv ((size_toNat_eq_zero v).1 h)
  have hp : n - 1 - c = v.toNat.size - 1 := by omega
  refine ⟨by omega, ?_, fun i hi => testBit_of_size_le (by omega)⟩
  rw [hp]
  exact testBit_size_sub_one fun h => hv (BitVec.eq_of_toNat_eq h)

/-- A number that is the distance of the highest set bit from the top is the count (R47). -/
theorem count_of_highest_bit {n d : Nat} {v : BitVec n} (hd : d < n) (hbit : v.getLsbD (n - 1 - d) = true)
    (habove : ∀ i, n - 1 - d < i → v.getLsbD i = false) : d = n - v.toNat.size := by
  have hsize : v.toNat.size = n - 1 - d + 1 := size_eq_of_highest hbit habove
  omega

theorem toNat_lt_of_count {n c : Nat} {v : BitVec n} (hc : c = n - v.toNat.size) : v.toNat < 2 ^ (n - c) :=
  Nat.size_le.1 (by have := size_toNat_le v; omega)

theorem count_antitone {n : Nat} {a b : BitVec n} (h : a.toNat ≤ b.toNat) : n - b.toNat.size ≤ n - a.toNat.size :=
  Nat.sub_le_sub_left (Nat.size_le_size h) n

/-- A bit set above all bits of `a` makes the count smaller (R47). -/
theorem count_lt_of_higher_bit {n i : Nat} {a b : BitVec n} (ha : ∀ k, i ≤ k → a.getLsbD k = false)
    (hb : b.getLsbD i = true) : n - b.toNat.size < n - a.toNat.size := by
  have hsa : a.toNat.size ≤ i := Nat.size_le.2 (Nat.lt_pow_two_of_testBit _ ha)
  have hsb : i < b.toNat.size := Nat.lt_size.2 (Nat.ge_two_pow_of_testBit hb)
  have hle := size_toNat_le b
  omega

theorem sub_size_of_range {n k v : Nat} (hlow : 2 ^ k ≤ v) (hhigh : v < 2 ^ (k + 1)) : n - v.size = n - 1 - k := by
  rw [size_eq_of_range hlow hhigh]
  omega

theorem sub_size_eq_width_iff {n : Nat} (hn : 0 < n) (v : BitVec n) : n - v.toNat.size = n ↔ v = 0#n := by
  rw [← size_toNat_eq_zero]
  omega

/-- The operand with the lowest `n - c` bits set has the count `c`. -/
theorem sub_size_ofNat_two_pow {n c : Nat} (hc : c ≤ n) :
    n - (BitVec.ofNat n (2 ^ (n - c) - 1)).toNat.size = c := by
  have hle : 2 ^ (n - c) ≤ 2 ^ n := Nat.pow_le_pow_right (by decide) (Nat.sub_le n c)
  have hpos := Nat.two_pow_pos (n - c)
  rw [BitVec.toNat_ofNat, Nat.mod_eq_of_lt (by omega), size_two_pow_sub_one]
  omega

/-- Of the numbers up to `2^k`, bit `k` marks the last. -/
theorem getLsbD_iff_eq_two_pow {n k : Nat} {c : BitVec n} (hc : c.toNat ≤ 2 ^ k) : c.getLsbD k = true ↔ c.toNat = 2 ^ k := by
  rw [← BitVec.testBit_toNat]
  constructor
  · exact fun hbit => le_antisymm hc (Nat.ge_two_pow_of_testBit hbit)
  · exact fun heq => heq ▸ Nat.testBit_two_pow_self

end Sys2Proof.Machine
end

section
/-! PROOFS. The nets of `LZC8` as numbers, stage by stage, and their sum as `clz_8` (spec/40_lzc8.md R41 to R46, R49). -/

namespace Sys2Proof.Machine

/-! ## Tests under a mask of adjacent bits -/

theorem anySet_iff_exists {n : Nat} (v m : BitVec n) :
    anySet v m = true ↔ ∃ i, v.getLsbD i = true ∧ m.getLsbD i = true := by
  rw [anySet_iff, ne_eq, BitVec.zero_iff_eq_false]
  simp

/-- Under a mask of bits `k` to `k + j - 1` the test is that one of these bits is set. -/
theorem anySet_group_iff_exists {n j k : Nat} {v m : BitVec n} (hm : m.toNat = (2 ^ j - 1) <<< k) :
    anySet v m = true ↔ ∃ i, v.getLsbD i = true ∧ k ≤ i ∧ i < k + j := by
  have hbit (i : Nat) : m.getLsbD i = true ↔ k ≤ i ∧ i < k + j := by
    rw [← BitVec.testBit_toNat, hm, Nat.testBit_shiftLeft, Nat.testBit_two_pow_sub_one]
    simp; omega
  rw [anySet_iff_exists]
  simp only [hbit]

/-- Under the mask of the upper bits of a window, the test is that the number has its high part nonzero. -/
theorem anySet_group_iff {n j k : Nat} {v m : BitVec n} (hm : m.toNat = (2 ^ j - 1) <<< k) (hv : v.toNat < 2 ^ (k + j)) :
    anySet v m = true ↔ v.toNat / 2 ^ k ≠ 0 := by
  rw [anySet_group_iff_exists hm, ne_eq, Nat.div_eq_zero_iff_lt (Nat.two_pow_pos k), Nat.not_lt]
  constructor
  · rintro ⟨i, hi, hk, -⟩
    exact (Nat.pow_le_pow_right (by decide) hk).trans (Nat.ge_two_pow_of_testBit hi)
  · intro hge
    obtain ⟨i, hk, hi⟩ := Nat.exists_ge_and_testBit_of_ge_two_pow hge
    refine ⟨i, hi, hk, Nat.lt_of_not_le fun hji => ?_⟩
    rw [Nat.testBit_lt_two_pow (hv.trans_le (Nat.pow_le_pow_right (by decide) hji))] at hi
    cases hi

theorem select_eq_ite {n : Nat} (c : Bool) (x y : BitVec n) : select c x y = if c then x else y := by
  cases c <;> rfl

theorem select_of_set {n : Nat} {c : Bool} (hc : c = true) (x y : BitVec n) : select c x y = x := by
  rw [hc, select_true]

theorem select_of_clear {n : Nat} {c : Bool} (hc : c = false) (x y : BitVec n) : select c x y = y := by
  rw [hc, select_false]

theorem select_toNat {n : Nat} {c : Bool} {P : Prop} [Decidable P] (hc : c = true ↔ P) (x y : BitVec n) :
    (select c x y).toNat = if P then x.toNat else y.toNat := by
  rw [select_eq_ite, apply_ite BitVec.toNat]
  exact if_congr hc rfl rfl

theorem eq_true_of_select_ne {n : Nat} {c : Bool} {x y : BitVec n} (h : select c x y ≠ y) : c = true := by
  by_contra hc
  exact h (select_of_clear (Bool.eq_false_iff.2 hc) x y)

theorem ushiftRight_ne_zero {n k : Nat} {v : BitVec n} (h : v.toNat / 2 ^ k ≠ 0) : v >>> k ≠ 0#n := fun hzero => by
  rw [← BitVec.toNat_inj, BitVec.toNat_ushiftRight, Nat.shiftRight_eq_div_pow] at hzero
  exact h hzero

/-! ## Stage 1 -/

theorem netS1_iff (b : Byte) : netS1 b = true ↔ b.toNat / 16 ≠ 0 :=
  anySet_group_iff (j := 4) (k := 4) rfl b.isLt

theorem netX1_toNat (b : Byte) : (netX1 b).toNat = if b.toNat / 16 ≠ 0 then b.toNat / 16 else b.toNat := by
  rw [netX1, select_toNat (netS1_iff b), BitVec.toNat_ushiftRight, Nat.shiftRight_eq_div_pow]
  rfl

theorem netX1_lt (b : Byte) : (netX1 b).toNat < 16 := by
  rw [netX1_toNat]
  have := b.isLt
  split_ifs <;> omega

theorem netC1_toNat (b : Byte) : (netC1 b).toNat = if b.toNat / 16 ≠ 0 then 0 else 4 :=
  select_toNat (netS1_iff b) _ _

theorem clz8_eq_stage1 (b : Byte) : clz8 b = (netC1 b).toNat + clzWindow 4 (netX1 b).toNat := by
  rw [clz8, clzWindow_split (j := 4) (k := 4) b.isLt, netC1_toNat, netX1_toNat, show 2 ^ 4 = 16 from rfl]
  split_ifs
  · exact (Nat.zero_add _).symm
  · rfl

/-! ## Stage 2, on any operand of 4 bits -/

theorem netS2_iff {x : Byte} (hx : x.toNat < 16) : netS2 x = true ↔ x.toNat / 4 ≠ 0 :=
  anySet_group_iff (j := 2) (k := 2) rfl hx

theorem netX2_toNat {x : Byte} (hx : x.toNat < 16) :
    (netX2 x).toNat = if x.toNat / 4 ≠ 0 then x.toNat / 4 else x.toNat := by
  rw [netX2, select_toNat (netS2_iff hx), BitVec.toNat_ushiftRight, Nat.shiftRight_eq_div_pow]
  rfl

theorem netX2_lt {x : Byte} (hx : x.toNat < 16) : (netX2 x).toNat < 4 := by
  rw [netX2_toNat hx]
  split_ifs <;> omega

theorem netC2_toNat {x : Byte} (hx : x.toNat < 16) : (netC2 x).toNat = if x.toNat / 4 ≠ 0 then 0 else 2 :=
  select_toNat (netS2_iff hx) _ _

theorem clzWindow_eq_stage2 {x : Byte} (hx : x.toNat < 16) :
    clzWindow 4 x.toNat = (netC2 x).toNat + clzWindow 2 (netX2 x).toNat := by
  rw [clzWindow_split (j := 2) (k := 2) hx, netC2_toNat hx, netX2_toNat hx, show 2 ^ 2 = 4 from rfl]
  split_ifs
  · exact (Nat.zero_add _).symm
  · rfl

/-! ## Stage 3 and the zero-operand term, on any operand of 2 bits -/

/-- The four operands of the 2-bit window. -/
theorem eq_of_toNat_lt_four {x : Byte} (hx : x.toNat < 4) : x = 0#8 ∨ x = 1#8 ∨ x = 2#8 ∨ x = 3#8 := by
  simp only [← BitVec.toNat_inj, BitVec.toNat_ofNat]
  omega

theorem netZ_iff (x : Byte) : netZ x = true ↔ x = 0#8 := beq_iff_eq

theorem netC4_of_zero {x : Byte} (hz : netZ x = true) : netC4 x = 1#4 :=
  select_of_set hz _ _

theorem netC4_of_nonzero {x : Byte} (hz : netZ x = false) : netC4 x = 0#4 :=
  select_of_clear hz _ _

theorem clzWindow_eq_stage3 {x : Byte} (hx : x.toNat < 4) : clzWindow 2 x.toNat = (netC3 x).toNat + (netC4 x).toNat := by
  rcases eq_of_toNat_lt_four hx with rfl | rfl | rfl | rfl <;> rfl

/-! ## The sum -/

theorem clz8_eq_sum (b : Byte) :
    clz8 b = (nets8 b).c1.toNat + (nets8 b).c2.toNat + (nets8 b).c3.toNat + (nets8 b).c4.toNat := by
  have h1 := netX1_lt b
  rw [clz8_eq_stage1, clzWindow_eq_stage2 h1, clzWindow_eq_stage3 (netX2_lt h1), ← Nat.add_assoc, ← Nat.add_assoc]
  rfl

theorem clz8_eq_sub_size (b : Byte) : clz8 b = 8 - b.toNat.size := clzWindow_eq_sub_size b.isLt

theorem clz8_le (b : Byte) : clz8 b ≤ 8 := by
  rw [clz8_eq_sub_size]
  exact Nat.sub_le _ _

/-- `LZC8` is `clz_8`: the sum of the contributions does not wrap (R46, R49). -/
theorem countLeadingZeros8_toNat (b : Byte) : (countLeadingZeros8 b).toNat = clz8 b := by
  have hsum := clz8_eq_sum b
  have hle := clz8_le b
  rw [countLeadingZeros8, BitVec.toNat_add, BitVec.toNat_add, BitVec.toNat_add]
  omega

theorem countLeadingZeros8_eq_sub_size (b : Byte) : (countLeadingZeros8 b).toNat = 8 - b.toNat.size :=
  (countLeadingZeros8_toNat b).trans (clz8_eq_sub_size b)

theorem countLeadingZeros8_le (b : Byte) : (countLeadingZeros8 b).toNat ≤ 8 := countLeadingZeros8_toNat b ▸ clz8_le b

end Sys2Proof.Machine
end

section
/-! PROOFS. The statements about `LZC8` (spec/40_lzc8.md). Every net is a number by its stage's lemma, and every property of the count
is one of the bit length. -/

namespace Sys2Proof.Machine

theorem netX1_toNat_nibble (b : Byte) :
    (netX1 b).toNat = if b.toNat / 16 ≠ 0 then b.toNat / 16 else b.toNat % 16 := by
  rw [netX1_toNat]
  split_ifs <;> omega

theorem netX1_eq_zero_iff (b : Byte) : netX1 b = 0#8 ↔ b = 0#8 := by
  rw [← BitVec.toNat_inj, ← BitVec.toNat_inj, netX1_toNat, BitVec.toNat_ofNat]
  split_ifs <;> omega

theorem netS1_eq_or (b : Byte) : netS1 b = (b.getLsbD 7 || b.getLsbD 6 || b.getLsbD 5 || b.getLsbD 4) := by
  rw [Bool.eq_iff_iff, netS1, anySet_group_iff_exists (j := 4) (k := 4) rfl]
  simp only [Bool.or_eq_true]
  constructor
  · rintro ⟨i, hi, hlow, hhigh⟩
    interval_cases i <;> simp only [hi, true_or, or_true]
  · rintro (((h | h) | h) | h)
    · exact ⟨7, h, by decide, by decide⟩
    · exact ⟨6, h, by decide, by decide⟩
    · exact ⟨5, h, by decide, by decide⟩
    · exact ⟨4, h, by decide, by decide⟩

/-- Settles O3, from the nets of stage 1 as numbers. -/
theorem lzc8NibbleSelection : Obligations.Lzc8NibbleSelection := by
  unfold Obligations.Lzc8NibbleSelection
  intro b
  exact ⟨anySet_iff b maskNibble, netS1_eq_or b, fun h => ⟨select_of_set h _ _, select_of_set h _ _⟩,
    fun h => ⟨select_of_clear h _ _, select_of_clear h _ _⟩, Nat.le_of_lt_succ (netX1_lt b), netX1_toNat_nibble b,
    netX1_eq_zero_iff b⟩

theorem netX2_eq_zero_iff {x : Byte} (hx : x.toNat < 16) : netX2 x = 0#8 ↔ x = 0#8 := by
  rw [← BitVec.toNat_inj, ← BitVec.toNat_inj, netX2_toNat hx, BitVec.toNat_ofNat]
  split_ifs <;> omega

theorem netS2_eq_or (x : Byte) : netS2 x = (x.getLsbD 3 || x.getLsbD 2) := by
  rw [Bool.eq_iff_iff, netS2, anySet_group_iff_exists (j := 2) (k := 2) rfl, Bool.or_eq_true]
  constructor
  · rintro ⟨i, hi, hlow, hhigh⟩
    interval_cases i <;> simp only [hi, true_or, or_true]
  · rintro (h | h)
    · exact ⟨3, h, by decide, by decide⟩
    · exact ⟨2, h, by decide, by decide⟩

theorem netX2_toNat_pair {x : Byte} (hx : x.toNat < 16) :
    (netX2 x).toNat = if x.toNat / 4 ≠ 0 then x.toNat / 4 else x.toNat % 4 := by
  rw [netX2_toNat hx]
  split_ifs <;> omega

/-- Settles O4, from the nets of stage 2 as numbers, on the nibble stage 1 leaves. -/
theorem lzc8PairSelection : Obligations.Lzc8PairSelection := by
  unfold Obligations.Lzc8PairSelection
  intro b
  have hx := netX1_lt b
  exact ⟨anySet_iff _ maskPair, netS2_eq_or _, fun h => ⟨select_of_set h _ _, select_of_set h _ _⟩,
    fun h => ⟨select_of_clear h _ _, select_of_clear h _ _⟩, Nat.le_of_lt_succ (netX2_lt hx), netX2_toNat_pair hx,
    (netX2_eq_zero_iff hx).trans (netX1_eq_zero_iff b)⟩

theorem nets8_z_iff (b : Byte) : (nets8 b).z = true ↔ b = 0#8 :=
  (netZ_iff _).trans ((netX2_eq_zero_iff (netX1_lt b)).trans (netX1_eq_zero_iff b))

theorem nets8_z_eq_false {b : Byte} (h : b ≠ 0#8) : (nets8 b).z = false :=
  Bool.eq_false_iff.2 fun hz => h ((nets8_z_iff b).1 hz)

theorem netZ_eq_nor {x : Byte} (hx : x.toNat < 4) : netZ x = !(x.getLsbD 1 || x.getLsbD 0) := by
  rcases eq_of_toNat_lt_four hx with rfl | rfl | rfl | rfl <;> rfl

theorem netZ_iff_clear {x : Byte} (hx : x.toNat < 4) : netZ x = true ↔ netS3 x = false ∧ x &&& 0x01#8 = 0#8 := by
  rcases eq_of_toNat_lt_four hx with rfl | rfl | rfl | rfl <;> decide

/-- Settles O6: the 2-bit window is zero exactly for the zero operand, and its four operands give the equal forms. -/
theorem lzc8ZeroOperandTerm : Obligations.Lzc8ZeroOperandTerm := by
  unfold Obligations.Lzc8ZeroOperandTerm
  intro b
  have hx := netX2_lt (netX1_lt b)
  exact ⟨netZ_iff _, netZ_eq_nor hx, netZ_iff_clear hx, nets8_z_iff b, netC4_of_zero, netC4_of_nonzero⟩

/-- The contributions add up to the bits of the tests, and the zero-operand term to them (R45). -/
theorem sum_eq_bits (s1 s2 s3 z : Bool) :
    select s1 0 addNibble + select s2 0 addPair + select s3 0 addTop + select z addZero 0 =
      BitVec.ofBool false ++ BitVec.ofBool (!s1) ++ BitVec.ofBool (!s2) ++ BitVec.ofBool (!s3) + (if z then 1#4 else 0#4) := by
  revert s1 s2 s3 z
  decide

/-- Settles O7: the contributions add up to the bits of the tests, and the term `z` is the zero operand's. -/
theorem lzc8SumForms : Obligations.Lzc8SumForms := by
  unfold Obligations.Lzc8SumForms
  intro b bits
  have hform : countLeadingZeros8 b = bits + if (nets8 b).z then 1#4 else 0#4 := sum_eq_bits _ _ _ _
  refine ⟨rfl, fun hb => ?_, fun hb => hb ▸ BitVec.eq_of_toNat_eq countLeadingZeros8_zero, hform⟩
  rw [hform, nets8_z_eq_false hb]
  exact BitVec.add_zero bits

/-- Settles O8: the three contributions miss the count by the fourth, which is 0 exactly for a nonzero operand. -/
theorem threeStepsMissOnlyTheZeroOperand : Obligations.ThreeStepsMissOnlyTheZeroOperand := by
  unfold Obligations.ThreeStepsMissOnlyTheZeroOperand
  intro b
  have hcount : countLeadingZeros8 b = (nets8 b).c1 + (nets8 b).c2 + (nets8 b).c3 + (nets8 b).c4 := rfl
  refine ⟨⟨fun h hb => ?_, fun hb => ?_⟩, fun hb => ?_⟩
  · subst hb
    exact absurd h (by decide)
  · rw [hcount, show (nets8 b).c4 = 0#4 from netC4_of_nonzero (nets8_z_eq_false hb), BitVec.add_zero]
  · subst hb
    decide

/-- Settles O12: the sum is `clz_8`, and a window differs from what its stage read only where the test was set. -/
theorem lzc8ArithmeticNeverWraps : Obligations.Lzc8ArithmeticNeverWraps := by
  unfold Obligations.Lzc8ArithmeticNeverWraps
  intro b
  exact ⟨(countLeadingZeros8_toNat b).trans (clz8_eq_sum b), clz8_eq_sum b ▸ clz8_le b,
    fun hx => ushiftRight_ne_zero ((netS1_iff b).1 (eq_true_of_select_ne hx)),
    fun hx => ushiftRight_ne_zero ((netS2_iff (netX1_lt b)).1 (eq_true_of_select_ne hx))⟩

/-- The count is one value on each range between two powers of 2 (R46). -/
theorem countLeadingZeros8_of_range {k : Nat} {b : Byte} (hlow : 2 ^ k ≤ b.toNat) (hhigh : b.toNat < 2 ^ (k + 1)) :
    (countLeadingZeros8 b).toNat = 7 - k :=
  (countLeadingZeros8_eq_sub_size b).trans (sub_size_of_range hlow hhigh)

theorem countLeadingZeros8_toNat_eq_eight_iff (b : Byte) : (countLeadingZeros8 b).toNat = 8 ↔ b = 0#8 := by
  rw [countLeadingZeros8_eq_sub_size, sub_size_eq_width_iff (by decide)]

/-- Settles O9: the reference is split stage by stage, and the table's ranges are the bit lengths. -/
theorem lzc8StagedFormIsReference : Obligations.Lzc8StagedFormIsReference := by
  unfold Obligations.Lzc8StagedFormIsReference
  intro b
  have hx := netX1_lt b
  refine ⟨clz8_eq_stage1 b, clzWindow_eq_stage2 hx, clzWindow_eq_stage3 (netX2_lt hx), countLeadingZeros8_toNat b, ?_⟩
  split_ifs with h0 h1 h2 h3 h4 h5 h6 h7
  · exact (countLeadingZeros8_toNat_eq_eight_iff b).2 (BitVec.eq_of_toNat_eq h0)
  · exact countLeadingZeros8_of_range (k := 0) (by omega) (by omega)
  · exact countLeadingZeros8_of_range (k := 1) (by omega) (by omega)
  · exact countLeadingZeros8_of_range (k := 2) (by omega) (by omega)
  · exact countLeadingZeros8_of_range (k := 3) (by omega) (by omega)
  · exact countLeadingZeros8_of_range (k := 4) (by omega) (by omega)
  · exact countLeadingZeros8_of_range (k := 5) (by omega) (by omega)
  · exact countLeadingZeros8_of_range (k := 6) (by omega) (by omega)
  · exact countLeadingZeros8_of_range (k := 7) (by omega) b.isLt

/-- Settles O10: each property is one of the bit length. -/
theorem lzc8SourceProperties : Obligations.Lzc8SourceProperties := by
  unfold Obligations.Lzc8SourceProperties
  intro b c
  have hc : c = 8 - b.toNat.size := countLeadingZeros8_eq_sub_size b
  refine ⟨?_, toNat_lt_of_count hc, fun hb => ?_, fun hb => highest_bit_of_count hb hc, fun a ha => ?_,
    fun a i hi ha hb _ => ?_, fun d _ hzero hnonzero => ?_⟩
  · exact countLeadingZeros8_le b
  · exact (countLeadingZeros8_toNat_eq_eight_iff b).2 hb
  · rw [hc, countLeadingZeros8_eq_sub_size]
    exact count_antitone ha
  · rw [hc, countLeadingZeros8_eq_sub_size]
    refine count_lt_of_higher_bit ha ?_
    simp [hb, hi]
  · by_cases hb : b = 0#8
    · exact (hzero hb).trans ((countLeadingZeros8_toNat_eq_eight_iff b).2 hb).symm
    · obtain ⟨hd, hbit, habove⟩ := hnonzero hb
      rw [hc]
      exact count_of_highest_bit (Nat.lt_succ_of_le hd) hbit habove

/-- Settles O11: a count is at most 8, with 8 for the zero operand alone, and `2^(8-c) - 1` has the count `c`. -/
theorem lzc8ResultPatterns : Obligations.Lzc8ResultPatterns := by
  unfold Obligations.Lzc8ResultPatterns
  refine ⟨fun b => ⟨countLeadingZeros8_le b, ?_⟩, fun c hc => ?_, fun n b s => ?_⟩
  · rw [getLsbD_iff_eq_two_pow (k := 3) (countLeadingZeros8_le b)]
    exact countLeadingZeros8_toNat_eq_eight_iff b
  · refine ⟨BitVec.ofNat 8 (2 ^ (8 - c.toNat) - 1), BitVec.eq_of_toNat_eq ?_⟩
    rw [countLeadingZeros8_eq_sub_size, sub_size_ofNat_two_pow (n := 8) hc]
  · obtain ⟨t, hexec, hgiven⟩ := exec_lzc8_givenAt n b s
    exact ⟨t, hexec, _, hgiven, countLeadingZeros8_le b⟩

theorem ite_and_ne_zero {n k : Nat} (v m : BitVec n) (x y : BitVec k) :
    (if v &&& m ≠ 0#n then x else y) = select (anySet v m) x y := by
  rw [select_eq_ite]
  exact if_congr (anySet_iff v m).symm rfl rfl

theorem ite_eq_zero {n k : Nat} (v : BitVec n) (x y : BitVec k) :
    (if v = 0#n then x else y) = select (isZero v) x y := by
  rw [select_eq_ite]
  exact if_congr beq_iff_eq.symm rfl rfl

theorem countLeadingZeros8_le_seven {b : Byte} (hb : b ≠ 0#8) : (countLeadingZeros8 b).toNat ≤ 7 :=
  (highest_bit_of_count hb (countLeadingZeros8_eq_sub_size b)).1

theorem countLeadingZeros8_of_top_bit {b : Byte} (hb : b.getLsbD 7 = true) : countLeadingZeros8 b = 0#4 :=
  BitVec.eq_of_toNat_eq (countLeadingZeros8_of_range (k := 7) (Nat.ge_two_pow_of_testBit hb) b.isLt)

/-- Settles O1: each line of the pseudocode is its net, so the sum is the count, which is `clz_8`; the corner cases follow from the
bit length or are evaluated. -/
theorem lzc8CompletesWithPseudocodeCount : Obligations.Lzc8CompletesWithPseudocodeCount := by
  unfold Obligations.Lzc8CompletesWithPseudocodeCount
  intro n b s s1 x1 c1 s2 x2 c2 s3 c3 z c4 c
  have hx1 : x1 = netX1 b := ite_and_ne_zero _ _ _ _
  have hc1 : c1 = netC1 b := ite_and_ne_zero _ _ _ _
  have hx2 : x2 = netX2 (netX1 b) := hx1 ▸ ite_and_ne_zero x1 _ _ _
  have hc2 : c2 = netC2 (netX1 b) := hx1 ▸ ite_and_ne_zero x1 _ _ _
  have hc3 : c3 = netC3 (netX2 (netX1 b)) := hx2 ▸ ite_and_ne_zero x2 _ _ _
  have hc4 : c4 = netC4 (netX2 (netX1 b)) := hx2 ▸ ite_eq_zero x2 _ _
  have hc : c = countLeadingZeros8 b := by
    change c1 + c2 + c3 + c4 = _
    rw [hc1, hc2, hc3, hc4]
    rfl
  rw [hc, hc1, hc2, hc3, hc4]
  refine ⟨⟨_, exec_lzc8 n b s, rfl, ports8_give s _, ports16_give s _, rfl⟩, countLeadingZeros8_toNat b,
    ((countLeadingZeros8_toNat b).trans (clz8_eq_sum b)).symm, countLeadingZeros8_le b, ?_, countLeadingZeros8_of_top_bit,
    ?_, countLeadingZeros8_le_seven, ?_⟩
  · rintro rfl
    decide
  · rintro rfl
    decide
  · rintro rfl
    decide

end Sys2Proof.Machine
end

section
/-! PROOFS. The nets of `LZC16` as numbers and their sum as `clz_16`, and the statements about it (spec/41_lzc16.md). -/

namespace Sys2Proof.Machine

theorem netS0_iff (w : Half) : netS0 w = true ↔ w.toNat / 256 ≠ 0 :=
  anySet_group_iff (j := 8) (k := 8) rfl w.isLt

theorem netY_of_set {w : Half} (h : netS0 w = true) : netY w = w >>> 8 :=
  select_of_set h _ _

theorem netY_of_clear {w : Half} (h : netS0 w = false) : netY w = w :=
  select_of_clear h _ _

theorem netC0_of_set {w : Half} (h : netS0 w = true) : netC0 w = 0#5 :=
  select_of_set h _ _

theorem netC0_of_clear {w : Half} (h : netS0 w = false) : netC0 w = 8#5 :=
  select_of_clear h _ _

theorem netS0_iff_highByte (w : Half) : netS0 w = true ↔ highByte w ≠ 0#8 := by
  rw [netS0_iff, ne_eq, ne_eq, ← BitVec.toNat_inj, highByte_toNat, BitVec.toNat_zero]

theorem netS0_of_highByte_zero {w : Half} (h : highByte w = 0#8) : netS0 w = false :=
  Bool.eq_false_iff.2 fun hset => (netS0_iff_highByte w).1 hset h

theorem netY_toNat (w : Half) : (netY w).toNat = if w.toNat / 256 ≠ 0 then w.toNat / 256 else w.toNat := by
  rw [netY, select_toNat (netS0_iff w), BitVec.toNat_ushiftRight, Nat.shiftRight_eq_div_pow]
  rfl

theorem netY_lt (w : Half) : (netY w).toNat < 256 := by
  rw [netY_toNat]
  have := w.isLt
  split_ifs <;> omega

theorem netY_eq_zero_iff (w : Half) : netY w = 0#16 ↔ w = 0#16 := by
  rw [← BitVec.toNat_inj, ← BitVec.toNat_inj, netY_toNat, BitVec.toNat_ofNat]
  split_ifs <;> omega

/-- Truncating the selected byte loses nothing (R52). -/
theorem trunc8_netY_toNat (w : Half) : (trunc8 (netY w)).toNat = (netY w).toNat := by
  rw [trunc8, BitVec.toNat_setWidth, Nat.mod_eq_of_lt (netY_lt w)]

theorem trunc8_netY_of_set {w : Half} (h : netS0 w = true) : trunc8 (netY w) = highByte w := by
  refine BitVec.eq_of_toNat_eq ?_
  rw [trunc8_netY_toNat, netY_toNat, if_pos ((netS0_iff w).1 h), highByte_toNat]

theorem trunc8_netY_of_clear {w : Half} (h : netS0 w = false) : trunc8 (netY w) = lowByte w := by
  rw [netY_of_clear h, trunc8, lowByte, BitVec.setWidth_eq_extractLsb' (by decide)]

theorem netN8_le (y : Half) : (netN8 y).toNat ≤ 8 := countLeadingZeros8_le _

theorem netN8_le_seven {w : Half} (h : netS0 w = true) : (netN8 (netY w)).toNat ≤ 7 := by
  rw [netN8, trunc8_netY_of_set h]
  exact countLeadingZeros8_le_seven ((netS0_iff_highByte w).1 h)

/-- Settles O14, from the nets of stage 0 as numbers. -/
theorem lzc16ByteSelection : Obligations.Lzc16ByteSelection := by
  unfold Obligations.Lzc16ByteSelection
  intro w
  exact ⟨anySet_iff w maskByte, netS0_iff_highByte w, fun h => ⟨netY_of_set h, netC0_of_set h, trunc8_netY_of_set h⟩,
    fun h => ⟨netY_of_clear h, netC0_of_clear h, trunc8_netY_of_clear h⟩, (trunc8_netY_toNat w).symm, netY_eq_zero_iff w, rfl,
    netN8_le_seven, netN8_le _⟩

/-! ## The sum -/

theorem netC0_toNat (w : Half) : (netC0 w).toNat = if w.toNat / 256 ≠ 0 then 0 else 8 :=
  select_toNat (netS0_iff w) _ _

theorem clz16_eq_sum (w : Half) : clz16 w = (nets16 w).c0.toNat + (nets16 w).n8.toNat := by
  have hn8 : (nets16 w).n8.toNat = clzWindow 8 (netY w).toNat := by
    rw [← trunc8_netY_toNat]
    exact countLeadingZeros8_toNat _
  rw [hn8, show (nets16 w).c0 = netC0 w from rfl, netC0_toNat, netY_toNat, clz16,
    clzWindow_split (j := 8) (k := 8) w.isLt, show 2 ^ 8 = 256 from rfl]
  split_ifs
  · exact (Nat.zero_add _).symm
  · rfl

theorem clz16_eq_sub_size (w : Half) : clz16 w = 16 - w.toNat.size := clzWindow_eq_sub_size w.isLt

theorem clz16_le (w : Half) : clz16 w ≤ 16 := by
  rw [clz16_eq_sub_size]
  exact Nat.sub_le _ _

/-- `LZC16` is `clz_16`: the sum of the contribution and the inner count does not wrap (R54, R56). -/
theorem countLeadingZeros16_toNat (w : Half) : (countLeadingZeros16 w).toNat = clz16 w := by
  have hsum := clz16_eq_sum w
  have hle := clz16_le w
  rw [countLeadingZeros16, BitVec.toNat_add, zext5, BitVec.toNat_setWidth]
  omega

theorem countLeadingZeros16_eq_sub_size (w : Half) : (countLeadingZeros16 w).toNat = 16 - w.toNat.size :=
  (countLeadingZeros16_toNat w).trans (clz16_eq_sub_size w)

theorem countLeadingZeros16_le (w : Half) : (countLeadingZeros16 w).toNat ≤ 16 := countLeadingZeros16_toNat w ▸ clz16_le w

theorem countLeadingZeros16_of_range {k : Nat} {w : Half} (hlow : 2 ^ k ≤ w.toNat) (hhigh : w.toNat < 2 ^ (k + 1)) :
    (countLeadingZeros16 w).toNat = 15 - k :=
  (countLeadingZeros16_eq_sub_size w).trans (sub_size_of_range hlow hhigh)

theorem countLeadingZeros16_toNat_eq_sixteen_iff (w : Half) : (countLeadingZeros16 w).toNat = 16 ↔ w = 0#16 := by
  rw [countLeadingZeros16_eq_sub_size, sub_size_eq_width_iff (by decide)]

theorem countLeadingZeros16_toNat_sum (w : Half) :
    (countLeadingZeros16 w).toNat = (netC0 w).toNat + (netN8 (netY w)).toNat :=
  (countLeadingZeros16_toNat w).trans (clz16_eq_sum w)

theorem countLeadingZeros16_of_highByte {w : Half} (h : highByte w ≠ 0#8) :
    (countLeadingZeros16 w).toNat = (countLeadingZeros8 (highByte w)).toNat := by
  have hset := (netS0_iff_highByte w).2 h
  rw [countLeadingZeros16_toNat_sum, netC0_of_set hset, netN8, trunc8_netY_of_set hset]
  exact Nat.zero_add _

theorem countLeadingZeros16_of_lowByte {w : Half} (h : highByte w = 0#8) :
    (countLeadingZeros16 w).toNat = 8 + (countLeadingZeros8 (lowByte w)).toNat := by
  have hclear := netS0_of_highByte_zero h
  rw [countLeadingZeros16_toNat_sum, netC0_of_clear hclear, netN8, trunc8_netY_of_clear hclear]
  rfl

/-- Settles O16: the two cases of stage 0, and the count as `clz_16` on each range of operands. -/
theorem lzc16CompositionLaw : Obligations.Lzc16CompositionLaw := by
  unfold Obligations.Lzc16CompositionLaw
  intro w
  exact ⟨countLeadingZeros16_of_highByte, countLeadingZeros16_of_lowByte, countLeadingZeros16_le w, countLeadingZeros16_toNat w,
    fun _ _ => countLeadingZeros16_of_range,
    fun hzero => (countLeadingZeros16_toNat_eq_sixteen_iff w).2 (BitVec.eq_of_toNat_eq hzero)⟩

/-- Where the selected byte is the low one and not zero, the contribution 8 is the bit above the three bits of the inner count. -/
theorem eight_add_setWidth {n8 : Count4} (hn8 : n8.toNat ≤ 8) (hne : n8 ≠ 8#4) :
    8#5 + n8.setWidth 5 = 0#1 ++ (1#1 ++ n8.setWidth 3) := by
  revert n8
  decide

/-- Settles O15: the two contributions of stage 0, with the inner count below 8 or 8. -/
theorem lzc16SumForms : Obligations.Lzc16SumForms := by
  unfold Obligations.Lzc16SumForms
  intro w
  have hsum : countLeadingZeros16 w = (nets16 w).c0 + (nets16 w).n8.setWidth 5 := rfl
  refine ⟨hsum, fun hset => ?_, fun hclear hn8 => ?_, fun hclear hn8 => ?_⟩
  · rw [hsum, show (nets16 w).c0 = 0#5 from netC0_of_set hset, BitVec.zero_add]
    exact BitVec.setWidth_eq_append (by decide)
  · rw [hsum, show (nets16 w).c0 = 8#5 from netC0_of_clear hclear]
    exact eight_add_setWidth (netN8_le _) hn8
  · rw [hsum, show (nets16 w).c0 = 8#5 from netC0_of_clear hclear, hn8]
    rfl

/-- Settles O17: each property is one of the bit length. -/
theorem lzc16CarriedOverProperties : Obligations.Lzc16CarriedOverProperties := by
  unfold Obligations.Lzc16CarriedOverProperties
  intro w c
  have hc : c = 16 - w.toNat.size := countLeadingZeros16_eq_sub_size w
  refine ⟨fun hw => highest_bit_of_count hw hc, toNat_lt_of_count hc, fun v hv => ?_⟩
  rw [hc, countLeadingZeros16_eq_sub_size]
  exact count_antitone hv

/-- Settles O18: a count is at most 16, with 16 for the zero operand alone, and `2^(16-c) - 1` has the count `c`. -/
theorem lzc16ResultPatterns : Obligations.Lzc16ResultPatterns := by
  unfold Obligations.Lzc16ResultPatterns
  refine ⟨fun w => ⟨countLeadingZeros16_le w, ?_⟩, fun c hc => ?_, fun n w s => ?_⟩
  · rw [getLsbD_iff_eq_two_pow (k := 4) (countLeadingZeros16_le w)]
    exact countLeadingZeros16_toNat_eq_sixteen_iff w
  · refine ⟨BitVec.ofNat 16 (2 ^ (16 - c.toNat) - 1), BitVec.eq_of_toNat_eq ?_⟩
    rw [countLeadingZeros16_eq_sub_size, sub_size_ofNat_two_pow (n := 16) hc]
  · obtain ⟨t, hexec, hgiven⟩ := exec_lzc16_givenAt n w s
    exact ⟨t, hexec, _, hgiven, countLeadingZeros16_le w⟩

theorem setWidth_trunc8_netY (w : Half) : (trunc8 (netY w)).setWidth 16 = netY w := by
  refine BitVec.eq_of_toNat_eq ?_
  rw [BitVec.toNat_setWidth, trunc8_netY_toNat, Nat.mod_eq_of_lt (netY w).isLt]

/-- Settles O19: the sum is `clz_16`, the selected byte has 8 bits, and it differs from the operand only where the test was set. -/
theorem lzc16ArithmeticNeverWraps : Obligations.Lzc16ArithmeticNeverWraps := by
  unfold Obligations.Lzc16ArithmeticNeverWraps
  intro w
  exact ⟨countLeadingZeros16_toNat_sum w, clz16_eq_sum w ▸ clz16_le w, setWidth_trunc8_netY w,
    fun hy => ushiftRight_ne_zero ((netS0_iff w).1 (eq_true_of_select_ne hy))⟩

/-- Where the upper byte is nonzero, the count is that of the upper byte (R54). -/
theorem countLeadingZeros16_congr {v w : Half} (hw : netS0 w = true) (hvw : v >>> 8 = w >>> 8) :
    countLeadingZeros16 v = countLeadingZeros16 w := by
  have hdiv : v.toNat / 256 = w.toNat / 256 := by
    simpa only [BitVec.toNat_ushiftRight, Nat.shiftRight_eq_div_pow] using congrArg BitVec.toNat hvw
  have hbyte : highByte v = highByte w := BitVec.eq_of_toNat_eq (by rw [highByte_toNat, highByte_toNat, hdiv])
  have hne := (netS0_iff_highByte w).1 hw
  refine BitVec.eq_of_toNat_eq ?_
  rw [countLeadingZeros16_of_highByte hne, countLeadingZeros16_of_highByte (hbyte ▸ hne), hbyte]

/-- Settles O2: each line of the pseudocode is its net, so the sum is the count, which is `clz_16`; the corner cases are evaluated. -/
theorem lzc16CompletesWithPseudocodeCount : Obligations.Lzc16CompletesWithPseudocodeCount := by
  unfold Obligations.Lzc16CompletesWithPseudocodeCount
  intro n w s s0 y c0 n8 c
  have hy : y = netY w := ite_and_ne_zero _ _ _ _
  have hc0 : c0 = netC0 w := ite_and_ne_zero _ _ _ _
  have hn8 : n8 = netN8 (netY w) := hy ▸ rfl
  have hc : c = countLeadingZeros16 w := by
    change c0 + n8.setWidth 5 = _
    rw [hc0, hn8]
    rfl
  rw [hc, hc0, hn8, hy]
  refine ⟨⟨_, exec_lzc16 n w s, rfl, ports8_give s _, ports16_give s _, rfl⟩, countLeadingZeros16_toNat w,
    Nat.le_of_lt_succ (netY_lt w), (countLeadingZeros16_toNat_sum w).symm, countLeadingZeros16_le w, ?_, ?_, ?_, ?_, ?_, ?_,
    fun v hs0 => countLeadingZeros16_congr ((anySet_iff w maskByte).2 hs0)⟩ <;>
  · rintro rfl
    decide

end Sys2Proof.Machine
end

section
/-! PROOFS. Which presentations a step runs, which it refuses, and the reference count it gives (spec/70_reset_and_hazards.md R86, R87,
spec/60_exceptions.md R60). -/

namespace Sys2Proof.Machine

theorem countOf_eq_clzWindow {k : Block} {v : Nat} (hv : v < 2 ^ k.width) : countOf k v = clzWindow k.width v := by
  cases k with
  | eight =>
    rw [countOf, countLeadingZeros8_toNat, clz8, BitVec.toNat_ofNat, Nat.mod_eq_of_lt (show v < 2 ^ 8 from hv)]; rfl
  | sixteen =>
    rw [countOf, countLeadingZeros16_toNat, clz16, BitVec.toNat_ofNat, Nat.mod_eq_of_lt (show v < 2 ^ 16 from hv)]; rfl

theorem countOf_le_maxCount (k : Block) (v : Nat) : countOf k v ≤ k.maxCount := by
  cases k with
  | eight => exact countLeadingZeros8_le _
  | sixteen => exact countLeadingZeros16_le _

theorem countOfInstr_operation (k : Block) (site v : Nat) : countOfInstr (operation k site v) = countOf k v := by
  cases k with
  | eight => exact countOfInstr_lzc8 site _
  | sixteen => exact countOfInstr_lzc16 site _

/-- Settles O42: each example is evaluated. -/
theorem sourceExamplesHold : Obligations.SourceExamplesHold := by
  unfold Obligations.SourceExamplesHold
  decide

/-! ## The boundary -/

theorem widthOk_iff (p : Presentation) : p.widthOk = true ↔ p.levels.length = p.block.width := beq_iff_eq

theorem wellFormed_iff (p : Presentation) : p.wellFormed = true ↔ p.widthOk = true ∧ p.driven = true := Bool.and_eq_true_iff

/-- A level outside the operand's domain makes the presentation undriven (R87). -/
theorem driven_eq_false_of_mem {p : Presentation} {l : Level} (hmem : l ∈ p.levels)
    (hl : l = .undriven ∨ l = .unknown ∨ l = .highImpedance) : p.driven = false := by
  refine List.all_eq_false.2 ⟨l, hmem, ?_⟩
  rcases hl with rfl | rfl | rfl <;> decide

theorem decode_of_value {p : Presentation} {v : Nat} (hwidth : p.widthOk = true) (hv : valueOf p.levels = some v) :
    decode p = .instr (operation p.block p.site v) := by
  simp only [decode, hwidth, hv, if_true]

theorem decode_of_not_driven {p : Presentation} (hwidth : p.widthOk = true) (hdriven : p.driven = false) :
    decode p = .rejected .operandBit := by
  have hnone : valueOf p.levels = none := by
    rw [← Option.not_isSome_iff_eq_none, valueOf_isSome]
    exact Bool.eq_false_iff.1 hdriven
  simp only [decode, hwidth, hnone, if_true]

section

variable {s : State} {p : Presentation} {rest : List Presentation}

theorem step_of_wellFormed (hp : s.host.pending = p :: rest) (h : p.wellFormed = true) :
    ∃ v, valueOf p.levels = some v ∧ step s = .next ((s.withPending rest).evaluate (operation p.block p.site v)) := by
  obtain ⟨v, hv, hd⟩ := decode_of_wellFormed h
  exact ⟨v, hv, step_eq_evaluate hp hd⟩

theorem step_of_width (hp : s.host.pending = p :: rest) (h : p.widthOk = false) : step s = .refused .operandWidth :=
  step_of_rejected hp (decode_of_not_widthOk h)

theorem step_of_not_driven (hp : s.host.pending = p :: rest) (hwidth : p.widthOk = true) (hdriven : p.driven = false) :
    step s = .refused .operandBit :=
  step_of_rejected hp (decode_of_not_driven hwidth hdriven)

end

/-- All that a step can do: with nothing presented it is refused; else it runs a well-formed presentation and refuses another by the
first check that fails. -/
theorem step_cases (s : State) :
    (s.host.pending = [] ∧ step s = .refused .nothingPresented) ∨
    ∃ p rest, s.host.pending = p :: rest ∧
      ((p.widthOk = true ∧ p.driven = true ∧ ∃ t, step s = .next t) ∨
        (p.widthOk = false ∧ step s = .refused .operandWidth) ∨
        (p.widthOk = true ∧ p.driven = false ∧ step s = .refused .operandBit)) := by
  cases hp : s.host.pending with
  | nil => exact .inl ⟨rfl, step_of_nothing hp⟩
  | cons p rest =>
    refine .inr ⟨p, rest, rfl, ?_⟩
    cases hwidth : p.widthOk with
    | false => exact .inr (.inl ⟨rfl, step_of_width hp hwidth⟩)
    | true =>
      cases hdriven : p.driven with
      | false => exact .inr (.inr ⟨rfl, rfl, step_of_not_driven hp hwidth hdriven⟩)
      | true =>
        obtain ⟨v, -, hstep⟩ := step_of_wellFormed hp ((wellFormed_iff p).2 ⟨hwidth, hdriven⟩)
        exact .inl ⟨rfl, rfl, _, hstep⟩

/-- Settles O30: the four cases of a step exclude each other, and in each both sides of the four equivalences are known. -/
theorem stepStopsExactlyAtTheBoundary : Obligations.StepStopsExactlyAtTheBoundary := by
  unfold Obligations.StepStopsExactlyAtTheBoundary
  simp only [← forall_and, wellFormed_iff]
  intro s
  rcases step_cases s with ⟨hp, hstep⟩ | ⟨p, rest, hp, ⟨hwidth, hdriven, t, hstep⟩ | ⟨hwidth, hstep⟩ | ⟨hwidth, hdriven, hstep⟩⟩
  · simp [hp, hstep]
  · simp [hp, hstep, hwidth, hdriven]
  · simp [hp, hstep, hwidth]
  · simp [hp, hstep, hwidth, hdriven]

/-- Settles O28: an undriven bit fails the boundary's second check. -/
theorem undrivenOperandIsRefused : Obligations.UndrivenOperandIsRefused := by
  unfold Obligations.UndrivenOperandIsRefused
  rintro s p rest hp hlen ⟨l, hmem, hl⟩
  exact step_of_not_driven hp ((widthOk_iff p).2 hlen) (driven_eq_false_of_mem hmem hl)

theorem operation_evaluate_givenAt (s : State) (k : Block) (site v : Nat) :
    (s.evaluate (operation k site v)).givenAt k site = some (countOf k v) := by
  simpa only [operation_block, operation_site, countOfInstr_operation] using evaluate_givenAt s (operation k site v)

theorem operation_evaluate_countAt (s : State) (k : Block) (site v : Nat) :
    (s.evaluate (operation k site v)).countAt k site = some (countOf k v) := by
  simpa only [operation_block, operation_site, countOfInstr_operation] using evaluate_countAt s (operation k site v)

/-- Settles O27: the step evaluates the operation on the value, which fits the port, so its count is `clz_N` of the value. -/
theorem stepGivesReferenceCount : Obligations.StepGivesReferenceCount := by
  unfold Obligations.StepGivesReferenceCount
  intro s p rest v hp hlen hv
  obtain ⟨-, hlt⟩ := levelsOf_valueOf hv
  rw [hlen] at hlt
  refine ⟨_, step_eq_evaluate hp (decode_of_value ((widthOk_iff p).2 hlen) hv), evaluate_pending _ _, ?_, ?_⟩
  · rw [operation_evaluate_givenAt, countOf_eq_clzWindow hlt]
  · rw [operation_evaluate_countAt, countOf_eq_clzWindow hlt]

/-- Settles O29: an operation, and a step on a well-formed presentation, give a count in the module's range. -/
theorem noOperandFaults : Obligations.NoOperandFaults := by
  unfold Obligations.NoOperandFaults
  refine ⟨fun i s => ?_, fun _ f => (nomatch f), fun s p rest hp hwf => ?_⟩
  · exact ⟨_, _, exec_eq_give i s, givenAt_give_givenOf i s, countOf_le_maxCount _ _⟩
  · obtain ⟨v, -, hstep⟩ := step_of_wellFormed hp hwf
    exact ⟨_, _, hstep, operation_evaluate_givenAt _ _ _ v, countOf_le_maxCount _ _⟩

end Sys2Proof.Machine
end

section
/-! PROOFS. Reading a written evaluation undoes writing it, part by part, and reads nothing outside the grammar's ranges
(spec/30_encoding.md R38). -/

namespace Sys2Proof.Machine

/-! ## Digits -/

theorem digitValue_digitChar {d : Nat} (hd : d < 16) : digitValue (digitChar d) = some d := by
  interval_cases d <;> rfl

theorem digitValue_lt {c : Char} {d : Nat} (h : digitValue c = some d) : d < 16 := by
  simp only [digitValue] at h
  split_ifs at h <;> cases h <;> omega

theorem decimalValue_digitChar {d : Nat} (hd : d < 10) : decimalValue (digitChar d) = some d := by
  simp [decimalValue, digitValue_digitChar (hd.trans (by decide)), hd]

/-! ## Hexadecimal operands -/

theorem readHex_cons {n acc d : Nat} {c : Char} (hc : digitValue c = some d) (cs : List Char) :
    readHex (n + 1) acc (c :: cs) = readHex n (16 * acc + d) cs := by
  simp only [readHex, hc]

/-- Digits written are read as the low digits of the number, after what was read before. -/
theorem readHex_writeHex (n acc v m : Nat) (cs : List Char) :
    readHex (n + m) acc (writeHex n v ++ cs) = readHex m (acc * 16 ^ n + v % 16 ^ n) cs := by
  induction n generalizing v m cs with
  | zero => simp [writeHex, Nat.mod_one]
  | succ n ih =>
    have hd : digitValue (digitChar (v % 16)) = some (v % 16) := digitValue_digitChar (Nat.mod_lt v (by decide))
    have hacc : 16 * (acc * 16 ^ n + v / 16 % 16 ^ n) + v % 16 = acc * 16 ^ (n + 1) + v % 16 ^ (n + 1) := by
      rw [Nat.pow_succ', Nat.mod_mul]
      ring
    rw [writeHex, List.append_assoc, show n + 1 + m = n + (m + 1) by omega, ih, List.singleton_append, readHex_cons hd, hacc]

/-- Reading `n` digits makes a number of `n` digits more. -/
theorem readHex_lt {n acc v : Nat} {cs rest : List Char} (h : readHex n acc cs = some (v, rest)) :
    v < (acc + 1) * 16 ^ n := by
  induction n generalizing acc cs with
  | zero => cases h; simp
  | succ n ih =>
    cases cs with
    | nil => cases h
    | cons c cs =>
      cases hc : digitValue c with
      | none => simp [readHex, hc] at h
      | some d =>
        rw [readHex_cons hc] at h
        calc v < (16 * acc + d + 1) * 16 ^ n := ih h
          _ ≤ ((acc + 1) * 16) * 16 ^ n := Nat.mul_le_mul_right _ (by have := digitValue_lt hc; omega)
          _ = (acc + 1) * 16 ^ (n + 1) := by rw [Nat.pow_succ', Nat.mul_assoc]

theorem sixteen_pow_hexDigits (k : Block) : 16 ^ hexDigits k = 2 ^ k.width := by
  cases k <;> rfl

/-! ## Counts, and the fixed parts -/

theorem readCount_writeCount {c : Nat} (hc : c < 100) : readCount (writeCount c) = some c := by
  unfold writeCount
  split_ifs with hlt
  · exact decimalValue_digitChar hlt
  · have htens : c / 10 < 10 := by omega
    have hunits : c % 10 < 10 := Nat.mod_lt c (by decide)
    have hne : c / 10 ≠ 0 := by omega
    simp only [readCount, decimalValue_digitChar htens, decimalValue_digitChar hunits, if_neg hne, Nat.div_add_mod]

theorem dropFront_append (pre cs : List Char) : dropFront pre (pre ++ cs) = some cs := by
  induction pre with
  | nil => rfl
  | cons p pre ih => simp [dropFront, ih]

/-- The mnemonics differ at their fourth letter's digit. -/
theorem dropFront_eight_sixteen (cs : List Char) : dropFront (writtenStart .eight) (writtenStart .sixteen ++ cs) = none := rfl

theorem maxCount_lt (k : Block) : k.maxCount < 100 := by
  cases k <;> decide

/-! ## The whole evaluation -/

theorem readOperandAndCount_written {e : Evaluation} (hoperand : e.operand < 2 ^ e.block.width)
    (hcount : e.count ≤ e.block.maxCount) :
    readOperandAndCount e.block (writeHex (hexDigits e.block) e.operand ++ (writtenArrow ++ writeCount e.count)) = some e := by
  have hhex : readHex (hexDigits e.block) 0 (writeHex (hexDigits e.block) e.operand ++ (writtenArrow ++ writeCount e.count)) =
      some (e.operand, writtenArrow ++ writeCount e.count) := by
    have h := readHex_writeHex (hexDigits e.block) 0 e.operand 0 (writtenArrow ++ writeCount e.count)
    rwa [Nat.zero_mul, Nat.zero_add, sixteen_pow_hexDigits, Nat.mod_eq_of_lt hoperand] at h
  simp only [readOperandAndCount, hhex, dropFront_append, readCount_writeCount (hcount.trans_lt (maxCount_lt _)), if_pos hcount]

theorem readEvaluation_start (k : Block) (cs : List Char) :
    readEvaluation (writtenStart k ++ cs) = readOperandAndCount k cs := by
  cases k with
  | eight => simp only [readEvaluation, dropFront_append]
  | sixteen => simp only [readEvaluation, dropFront_eight_sixteen, dropFront_append]

theorem evaluation_wellFormed_iff (e : Evaluation) :
    e.wellFormed = true ↔ e.operand < 2 ^ e.block.width ∧ e.count ≤ e.block.maxCount := by
  simp [Evaluation.wellFormed, Evaluation.operandOk, Evaluation.countOk]

theorem readEvaluation_writeEvaluation {e : Evaluation} (h : e.wellFormed = true) :
    readEvaluation (writeEvaluation e) = some e := by
  obtain ⟨hoperand, hcount⟩ := (evaluation_wellFormed_iff e).1 h
  rw [writeEvaluation, List.append_assoc, List.append_assoc, readEvaluation_start, readOperandAndCount_written hoperand hcount]

/-- What is read of a module passes the grammar's ranges: the operand has its digits, and the count is checked. -/
theorem readOperandAndCount_wellFormed {k : Block} {cs : List Char} {e : Evaluation}
    (h : readOperandAndCount k cs = some e) : e.wellFormed = true := by
  unfold readOperandAndCount at h
  split at h
  · cases h
  · rename_i v rest hhex
    split at h
    · cases h
    · split at h
      · cases h
      · split_ifs at h with hcount
        cases h
        have hoperand := readHex_lt hhex
        rw [Nat.zero_add, Nat.one_mul, sixteen_pow_hexDigits] at hoperand
        exact (evaluation_wellFormed_iff _).2 ⟨hoperand, hcount⟩

theorem readEvaluation_wellFormed {cs : List Char} {e : Evaluation} (h : readEvaluation cs = some e) :
    e.wellFormed = true := by
  unfold readEvaluation at h
  split at h
  · exact readOperandAndCount_wellFormed h
  · split at h
    · exact readOperandAndCount_wellFormed h
    · cases h

/-- Settles O41: each part written is read back, and the ranges are those of the digits and of the check on the count. -/
theorem writtenFormIsReadBack : Obligations.WrittenFormIsReadBack := by
  unfold Obligations.WrittenFormIsReadBack
  exact ⟨fun _ => readEvaluation_writeEvaluation, fun _ _ => readEvaluation_wellFormed⟩

end Sys2Proof.Machine
end
